-- ==== Sys2Proof/Word.lean ====
section
/-! DEFINITION. The word types of the CORE (spec/00_scope.md R5, R7): bytes, 16-bit words, the 4-bit and
12-bit fields of an instruction word. All are unsigned. -/

namespace Sys2Proof

/-- A `u8`: one general register, one timer, one byte of memory. -/
abbrev Byte := BitVec 8

/-- A `u16`: `I`, `PC`, a stack slot, an instruction word. -/
abbrev Word := BitVec 16

/-- A 4-bit field of the instruction word (R71). -/
abbrev Nibble := BitVec 4

/-- A register selector: every one of its 16 values names a register (R20). -/
abbrev Reg := BitVec 4

/-- The 12-bit address field `nnn` (R71). -/
abbrev Addr12 := BitVec 12

end Sys2Proof
end

