-- ==== Sys2Proof/Decode.lean ====
section
/-! DEFINITION. The decoder (spec/30_encoding.md R71 to R79, spec/40_step_cycle.md R95, R102), total on any bytes and
rejecting by name; the encoder (R82); and the opcode table of R75 as data. -/

namespace Sys2Proof

/-! ### The fields of a word (R71) -/

namespace Word

/-- `w[15:12]`. -/
def group (w : Word) : Nibble := w.extractLsb' 12 4

/-- `w[11:8]`. -/
def x (w : Word) : Reg := w.extractLsb' 8 4

/-- `w[7:4]`. -/
def y (w : Word) : Reg := w.extractLsb' 4 4

/-- `w[3:0]`. -/
def n (w : Word) : Nibble := w.extractLsb' 0 4

/-- `w[7:0]`. -/
def kk (w : Word) : Byte := w.extractLsb' 0 8

/-- `w[11:0]`. -/
def nnn (w : Word) : Addr12 := w.extractLsb' 0 12

/-- `MEM[a] ++ MEM[a+1]`: the byte at the lower address is the high one (spec/20_memory.md R56). -/
def ofBytes (hi lo : Byte) : Word := hi ++ lo

/-- The two bytes of a word in the order memory holds them (R56). -/
def toBytes (w : Word) : List Byte := [w.extractLsb' 8 8, w.extractLsb' 0 8]

end Word

/-! ### Decoding (R74, R75) -/

/-- Why bytes are no instruction: the classes of R77, each by name, and bytes too few for a word. -/
inductive Reject where
  /-- Fewer than two bytes. -/
  | truncated
  /-- `0nnn` other than `00E0` and `00EE` (R78). -/
  | unknownGroup0
  /-- `5xyn` with `n` not 0. -/
  | unknownGroup5
  /-- `8xyn` with `n` in 8..D or F. -/
  | unknownGroup8
  /-- `9xyn` with `n` not 0. -/
  | unknownGroup9
  /-- `Exkk` with `kk` other than 9E and A1. -/
  | unknownGroupE
  /-- `Fxkk` with `kk` none of the nine defined. -/
  | unknownGroupF
  deriving DecidableEq, Repr

/-- Group 8: the sub-opcode is `n`. -/
def decodeGroup8 (x y : Reg) (n : Nibble) : Except Reject Instr :=
  match n with
  | 0x0#4 => .ok (.ldReg x y)
  | 0x1#4 => .ok (.orReg x y)
  | 0x2#4 => .ok (.andReg x y)
  | 0x3#4 => .ok (.xorReg x y)
  | 0x4#4 => .ok (.addReg x y)
  | 0x5#4 => .ok (.sub x y)
  | 0x6#4 => .ok (.shr x y)
  | 0x7#4 => .ok (.subn x y)
  | 0xE#4 => .ok (.shl x y)
  | _ => .error .unknownGroup8

/-- Group F: the sub-opcode is `kk`. -/
def decodeGroupF (x : Reg) (kk : Byte) : Except Reject Instr :=
  match kk with
  | 0x07#8 => .ok (.ldVxDt x)
  | 0x0A#8 => .ok (.ldVxK x)
  | 0x15#8 => .ok (.ldDtVx x)
  | 0x18#8 => .ok (.ldStVx x)
  | 0x1E#8 => .ok (.addI x)
  | 0x29#8 => .ok (.ldF x)
  | 0x33#8 => .ok (.ldB x)
  | 0x55#8 => .ok (.stRegs x)
  | 0x65#8 => .ok (.ldRegs x)
  | _ => .error .unknownGroupF

/-- The selection of R74: by group, then by a sub-opcode that must match exactly. Total on all 65536 words
(R73). The last arm is group F, the one 4-bit value left. -/
def decodeWord (w : Word) : Except Reject Instr :=
  match w.group with
  | 0x0#4 =>
    match w.nnn with
    | 0x0E0#12 => .ok .cls
    | 0x0EE#12 => .ok .ret
    | _ => .error .unknownGroup0
  | 0x1#4 => .ok (.jp w.nnn)
  | 0x2#4 => .ok (.call w.nnn)
  | 0x3#4 => .ok (.seImm w.x w.kk)
  | 0x4#4 => .ok (.sneImm w.x w.kk)
  | 0x5#4 => if w.n = 0x0#4 then .ok (.seReg w.x w.y) else .error .unknownGroup5
  | 0x6#4 => .ok (.ldImm w.x w.kk)
  | 0x7#4 => .ok (.addImm w.x w.kk)
  | 0x8#4 => decodeGroup8 w.x w.y w.n
  | 0x9#4 => if w.n = 0x0#4 then .ok (.sneReg w.x w.y) else .error .unknownGroup9
  | 0xA#4 => .ok (.ldI w.nnn)
  | 0xB#4 => .ok (.jpV0 w.nnn)
  | 0xC#4 => .ok (.rnd w.x w.kk)
  | 0xD#4 => .ok (.drw w.x w.y w.n)
  | 0xE#4 =>
    match w.kk with
    | 0x9E#8 => .ok (.skp w.x)
    | 0xA1#8 => .ok (.sknp w.x)
    | _ => .error .unknownGroupE
  | _ => decodeGroupF w.x w.kk

/-- Decode the first instruction of a byte sequence and give the rest back: the first byte is the high one (R56). -/
def decode : List Byte → Except Reject (Instr × List Byte)
  | hi :: lo :: rest => (decodeWord (Word.ofBytes hi lo)).map (fun i => (i, rest))
  | _ => .error .truncated

/-! ### Encoding (R82) -/

/-- A word from its four nibbles. -/
def packXyn (group : Nibble) (x y : Reg) (n : Nibble) : Word := group ++ x ++ y ++ n

/-- A word from group, `x` and `kk`. -/
def packXkk (group : Nibble) (x : Reg) (kk : Byte) : Word := group ++ x ++ kk

/-- A word from group and `nnn`. -/
def packNnn (group : Nibble) (nnn : Addr12) : Word := group ++ nnn

/-- The word of an instruction: the literal digits of its pattern in R75 and its operand fields (R82). -/
def encode : Instr → Word
  | .cls => 0x00E0#16
  | .ret => 0x00EE#16
  | .jp nnn => packNnn 0x1#4 nnn
  | .call nnn => packNnn 0x2#4 nnn
  | .seImm x kk => packXkk 0x3#4 x kk
  | .sneImm x kk => packXkk 0x4#4 x kk
  | .seReg x y => packXyn 0x5#4 x y 0x0#4
  | .ldImm x kk => packXkk 0x6#4 x kk
  | .addImm x kk => packXkk 0x7#4 x kk
  | .ldReg x y => packXyn 0x8#4 x y 0x0#4
  | .orReg x y => packXyn 0x8#4 x y 0x1#4
  | .andReg x y => packXyn 0x8#4 x y 0x2#4
  | .xorReg x y => packXyn 0x8#4 x y 0x3#4
  | .addReg x y => packXyn 0x8#4 x y 0x4#4
  | .sub x y => packXyn 0x8#4 x y 0x5#4
  | .shr x y => packXyn 0x8#4 x y 0x6#4
  | .subn x y => packXyn 0x8#4 x y 0x7#4
  | .shl x y => packXyn 0x8#4 x y 0xE#4
  | .sneReg x y => packXyn 0x9#4 x y 0x0#4
  | .ldI nnn => packNnn 0xA#4 nnn
  | .jpV0 nnn => packNnn 0xB#4 nnn
  | .rnd x kk => packXkk 0xC#4 x kk
  | .drw x y n => packXyn 0xD#4 x y n
  | .skp x => packXkk 0xE#4 x 0x9E#8
  | .sknp x => packXkk 0xE#4 x 0xA1#8
  | .ldVxDt x => packXkk 0xF#4 x 0x07#8
  | .ldVxK x => packXkk 0xF#4 x 0x0A#8
  | .ldDtVx x => packXkk 0xF#4 x 0x15#8
  | .ldStVx x => packXkk 0xF#4 x 0x18#8
  | .addI x => packXkk 0xF#4 x 0x1E#8
  | .ldF x => packXkk 0xF#4 x 0x29#8
  | .ldB x => packXkk 0xF#4 x 0x33#8
  | .stRegs x => packXkk 0xF#4 x 0x55#8
  | .ldRegs x => packXkk 0xF#4 x 0x65#8

/-- The two bytes of an instruction as memory holds them (R56, R70). -/
def encodeBytes (i : Instr) : List Byte := (encode i).toBytes

/-! ### The opcode map as data (R75) -/

/-- A row of R75: `w` selects it when `w & mask = match`. -/
abbrev OpcodeRow := Word × Word

/-- `match` and `mask` of the row of an instruction. -/
def opcodeRow : Instr → OpcodeRow
  | .cls => (0x00E0#16, 0xFFFF#16)
  | .ret => (0x00EE#16, 0xFFFF#16)
  | .jp _ => (0x1000#16, 0xF000#16)
  | .call _ => (0x2000#16, 0xF000#16)
  | .seImm _ _ => (0x3000#16, 0xF000#16)
  | .sneImm _ _ => (0x4000#16, 0xF000#16)
  | .seReg _ _ => (0x5000#16, 0xF00F#16)
  | .ldImm _ _ => (0x6000#16, 0xF000#16)
  | .addImm _ _ => (0x7000#16, 0xF000#16)
  | .ldReg _ _ => (0x8000#16, 0xF00F#16)
  | .orReg _ _ => (0x8001#16, 0xF00F#16)
  | .andReg _ _ => (0x8002#16, 0xF00F#16)
  | .xorReg _ _ => (0x8003#16, 0xF00F#16)
  | .addReg _ _ => (0x8004#16, 0xF00F#16)
  | .sub _ _ => (0x8005#16, 0xF00F#16)
  | .shr _ _ => (0x8006#16, 0xF00F#16)
  | .subn _ _ => (0x8007#16, 0xF00F#16)
  | .shl _ _ => (0x800E#16, 0xF00F#16)
  | .sneReg _ _ => (0x9000#16, 0xF00F#16)
  | .ldI _ => (0xA000#16, 0xF000#16)
  | .jpV0 _ => (0xB000#16, 0xF000#16)
  | .rnd _ _ => (0xC000#16, 0xF000#16)
  | .drw _ _ _ => (0xD000#16, 0xF000#16)
  | .skp _ => (0xE09E#16, 0xF0FF#16)
  | .sknp _ => (0xE0A1#16, 0xF0FF#16)
  | .ldVxDt _ => (0xF007#16, 0xF0FF#16)
  | .ldVxK _ => (0xF00A#16, 0xF0FF#16)
  | .ldDtVx _ => (0xF015#16, 0xF0FF#16)
  | .ldStVx _ => (0xF018#16, 0xF0FF#16)
  | .addI _ => (0xF01E#16, 0xF0FF#16)
  | .ldF _ => (0xF029#16, 0xF0FF#16)
  | .ldB _ => (0xF033#16, 0xF0FF#16)
  | .stRegs _ => (0xF055#16, 0xF0FF#16)
  | .ldRegs _ => (0xF065#16, 0xF0FF#16)

/-- The 34 rows of R75, in its order. -/
def opcodeTable : List OpcodeRow :=
  [(0x00E0#16, 0xFFFF#16), (0x00EE#16, 0xFFFF#16), (0x1000#16, 0xF000#16), (0x2000#16, 0xF000#16),
   (0x3000#16, 0xF000#16), (0x4000#16, 0xF000#16), (0x5000#16, 0xF00F#16), (0x6000#16, 0xF000#16),
   (0x7000#16, 0xF000#16)] ++
  [(0x8000#16, 0xF00F#16), (0x8001#16, 0xF00F#16), (0x8002#16, 0xF00F#16), (0x8003#16, 0xF00F#16),
   (0x8004#16, 0xF00F#16), (0x8005#16, 0xF00F#16), (0x8006#16, 0xF00F#16), (0x8007#16, 0xF00F#16),
   (0x800E#16, 0xF00F#16), (0x9000#16, 0xF00F#16)] ++
  [(0xA000#16, 0xF000#16), (0xB000#16, 0xF000#16), (0xC000#16, 0xF000#16), (0xD000#16, 0xF000#16),
   (0xE09E#16, 0xF0FF#16), (0xE0A1#16, 0xF0FF#16)] ++
  [(0xF007#16, 0xF0FF#16), (0xF00A#16, 0xF0FF#16), (0xF015#16, 0xF0FF#16), (0xF018#16, 0xF0FF#16),
   (0xF01E#16, 0xF0FF#16), (0xF029#16, 0xF0FF#16), (0xF033#16, 0xF0FF#16), (0xF055#16, 0xF0FF#16),
   (0xF065#16, 0xF0FF#16)]

/-- A word selects a row (R75). -/
def OpcodeRow.selects (r : OpcodeRow) (w : Word) : Bool := w &&& r.2 == r.1

/-! ### The table's own numbering of an instruction's bits -/

/-- The instruction word whose bits are the low `nbits` bits of `w` (16 for every row of the table). -/
def tableWord (nbits w : Nat) : Word := BitVec.ofNat 16 (w % 2 ^ nbits)

/-- What the decoder reads from that word, laid out as memory holds it. -/
def decodeTableWord (nbits w : Nat) : Option Instr :=
  match decode (tableWord nbits w).toBytes with
  | .ok (i, _) => some i
  | .error _ => none

end Sys2Proof
end

