-- ==== Sys2Proof/Config.lean ====
section
/-! DEFINITION. What is fixed for this hardware (spec/00_scope.md R5, R6), and the one free value, the
random byte (spec/42_alu.md R144). The parameters EDGE_POLICY, BLOCK_INCREMENTS_I and OOB_POLICY have one
specified value each (linear_wrap, false, fault) and the model has those values built in (log 13). -/

namespace Sys2Proof.Config

/-- Bytes of memory: addresses 0x000 to 0xFFF (R5). -/
abbrev memSize : Nat := 4096

/-- `FB_W` (R6). -/
abbrev fbWidth : Nat := 64

/-- `FB_H` (R6). -/
abbrev fbHeight : Nat := 32

/-- Where a program is loaded and where `PC` starts (R5). -/
abbrev loadBase : Nat := 0x200

/-- The largest program: 4096 - 0x200 = 3584 bytes (R5, R53). -/
abbrev maxRomSize : Nat := memSize - loadBase

/-- The byte the random source draws the n-th time it is asked, where the host has sent none (R144, and 93
U5: "any value", no relation between draws). Opaque: no proof can see its value (log 4). -/
opaque rnd : Nat → Byte

end Sys2Proof.Config
end

