-- ==== Sys2Proof/Machine/State.lean ====
section
/-! DEFINITION. The state of the machine as plain data (spec/10_state.md), what an event returns to the host
(spec/60_exceptions.md R221), the host's events (spec/40_step_cycle.md R91), and the state after reset (R44). -/

namespace Sys2Proof.Machine

/-- The run mode (R30). -/
inductive Mode where
  /-- Steps execute. -/
  | running
  /-- Steps are idle; `RESUME` goes back to Running. -/
  | paused
  /-- Steps are idle for ever; only `RESET` leaves it. -/
  | halted
  deriving DecidableEq, Repr

/-- The causes of a fatal fault (R222). The spec describes the entry of every one (R224), so a step that raises
one answers a NEXT state, Halted, with the cause in its outcome; no step answers `Host.Outcome.fault` (log 3). -/
inductive Fault where
  /-- Raised by `2nnn` when the stack holds 12 entries (R225). Safe: the spec's own stop, with its effect. -/
  | stackOverflow
  /-- Raised by `00EE` when the stack is empty (R226). Safe: the spec's own stop, with its effect. -/
  | stackUnderflow
  /-- Raised by a fetch, `Dxyn`, `Fx33`, `Fx55` or `Fx65` that would pass address 0xFFF (R227). Safe: a stop of
  the spec with its effect (R60). -/
  | addressOutOfRange
  deriving DecidableEq, Repr

/-- Why a step has no meaning. -/
inductive Refusal where
  /-- Raised by an arm of `exec` whose instruction has no meaning yet. Safe. No arm of this model is one. -/
  | notModelled (mnemonic : String)
  deriving DecidableEq, Repr

/-- The value a step returns (R221): `a` is the instruction's address, `w` its word, absent when no word
was read. -/
inductive CycleOutcome where
  | idle
  | executed
  | unknownOpcode (a w : Word)
  | fault (cause : Fault) (a : Word) (w : Option Word)
  deriving DecidableEq, Repr

/-- What the last event returned to the host (70_reset_and_hazards.md R262; log 2). -/
inductive Reply where
  /-- The event returns nothing. -/
  | nothing
  /-- A step's outcome. -/
  | cycle (o : CycleOutcome)
  /-- `Ok` of `LOAD` (R252). -/
  | loadOk
  /-- `Err(ProgramTooLarge)` of `LOAD` (R252). -/
  | programTooLarge
  /-- The event was outside the interface contract and was not accepted (93 U11). -/
  | refused
  deriving DecidableEq, Repr

/-- The events the host raises (R91, R262). -/
inductive Event where
  /-- `STEP(rnd)`: `none` where the generator supplies the byte (R262). -/
  | step (rnd : Option Byte)
  | tick
  | setKey (index : Nat) (down : Bool)
  | pause
  | resume
  | halt
  | load (bytes : List Byte)
  | reset
  deriving DecidableEq, Repr

/-- The 4096 bytes of `MEM` (R33): the bytes that differ from the reset contents, by rising address. -/
abbrev Memory := List Host.Cell

/-- The framebuffer: 32 rows of 64 one-bit pixels, column `c` of a row at bit `c` (R34, R180; log 14). -/
abbrev Screen := Vector (BitVec 64) 32

/-- Everything the spec gives the machine (10_state.md), what an event returns, and the host's side. -/
structure State where
  /-- `V[0]`..`V[15]` (R20). -/
  v : Vector Byte 16
  /-- `I` (R23). -/
  i : Word
  /-- `PC` (R25). -/
  pc : Word
  /-- `STACK[0]`..`STACK[11]` (R26). -/
  stack : Vector Word 12
  /-- `SP`, the depth, 0 to 12 (R27). -/
  sp : Fin 13
  /-- `DT` (R29). -/
  dt : Byte
  /-- `ST` (R29). -/
  st : Byte
  /-- `FB` (R34). -/
  fb : Screen
  /-- `MODE` (R30). -/
  mode : Mode
  /-- `MEM` (R33). -/
  mem : Memory
  /-- `KEY`, the input the host sets (R35). -/
  key : Vector Bool 16
  /-- What the last event returned (R262; log 2). -/
  reply : Reply
  /-- The random byte the host sent with the step now executing (R6, R262; log 4). -/
  rndIn : Option Byte
  /-- How many random bytes have been drawn: numbers the free values (log 4). -/
  draws : Nat
  /-- No step and no successful load since reset: `LOAD` is still inside its contract (R253; log 5). -/
  loadable : Bool
  /-- The events the host is going to raise, the next one first; none listed means `STEP` (R91; log 1). -/
  hostEvents : List Event
  deriving DecidableEq, Repr

/-- The state after reset (R44, R250): memory lists nothing, so it reads as its reset contents. -/
def State.reset : State where
  v := Vector.replicate 16 0x00#8
  i := 0x0000#16
  pc := 0x0200#16
  stack := Vector.replicate 12 0x0000#16
  sp := 0
  dt := 0x00#8
  st := 0x00#8
  fb := Vector.replicate 32 0#64
  mode := .running
  mem := []
  key := Vector.replicate 16 false
  reply := .nothing
  rndIn := none
  draws := 0
  loadable := true
  hostEvents := []

end Sys2Proof.Machine
end

