-- ==== Sys2Proof/Machine/Memory.lean ====
section
/-! DEFINITION. `MEM` (spec/20_memory.md): its reset contents with the font table (R44, R54), reading and writing
one byte, and the canonical form of the list that holds it. -/

namespace Sys2Proof.Machine

/-- `FONT[0..79]`: 16 glyphs of 5 bytes, digit 0 first (R54). -/
def fontBytes : List Byte :=
  [0xF0, 0x90, 0x90, 0x90, 0xF0,  0x20, 0x60, 0x20, 0x20, 0x70] ++
  [0xF0, 0x10, 0xF0, 0x80, 0xF0,  0xF0, 0x10, 0xF0, 0x10, 0xF0] ++
  [0x90, 0x90, 0xF0, 0x10, 0x10,  0xF0, 0x80, 0xF0, 0x10, 0xF0] ++
  [0xF0, 0x80, 0xF0, 0x90, 0xF0,  0xF0, 0x10, 0x20, 0x40, 0x40] ++
  [0xF0, 0x90, 0xF0, 0x90, 0xF0,  0xF0, 0x90, 0xF0, 0x10, 0xF0] ++
  [0xF0, 0x90, 0xF0, 0x90, 0x90,  0xE0, 0x90, 0xE0, 0x90, 0xE0] ++
  [0xF0, 0x80, 0x80, 0x80, 0xF0,  0xE0, 0x90, 0x90, 0x90, 0xE0] ++
  [0xF0, 0x80, 0xF0, 0x80, 0xF0,  0xF0, 0x80, 0xF0, 0x80, 0x80]

/-- What an address nothing has written reads as: the reset contents of R44, `FONT` at 0x050..0x09F and 0x00
everywhere else (log 7). -/
def Memory.background (a : Nat) : Byte :=
  if 0x050 ≤ a then fontBytes.getD (a - 0x050) 0x00#8 else 0x00#8

/-- `MEM[a]`. -/
def Memory.read : Memory → Nat → Byte
  | [], a => Memory.background a
  | c :: m, a => if c.1 = a then c.2 else Memory.read m a

/-- Forget what was written at `a`. -/
def Memory.erase (m : Memory) (a : Nat) : Memory := m.filter (fun c => c.1 != a)

/-- Put a cell in its place by address. -/
def Memory.insert : Memory → Nat → Byte → Memory
  | [], a, b => [(a, b)]
  | c :: m, a, b => if a < c.1 then (a, b) :: c :: m else c :: Memory.insert m a b

/-- `MEM[a] <- b`, keeping the canonical form. -/
def Memory.write (m : Memory) (a : Nat) (b : Byte) : Memory :=
  if b = Memory.background a then Memory.erase m a else Memory.insert (Memory.erase m a) a b

/-- `MEM[a], MEM[a+1], … <- bytes`, in increasing address order. -/
def Memory.writeSpan : Memory → Nat → List Byte → Memory
  | m, _, [] => m
  | m, a, b :: bs => Memory.writeSpan (Memory.write m a b) (a + 1) bs

/-- `MEM[a], …, MEM[a+n-1]`. -/
def Memory.readSpan (m : Memory) (a : Nat) : Nat → List Byte
  | 0 => []
  | n + 1 => Memory.read m a :: Memory.readSpan m (a + 1) n

/-- The canonical form: addresses strictly rise and are below 4096, and no cell holds what its address would
read as unlisted. -/
abbrev Memory.wf (m : Memory) : Prop :=
  m.Pairwise (fun c d => c.1 < d.1) ∧ ∀ c ∈ m, c.1 < Config.memSize ∧ c.2 ≠ Memory.background c.1

end Sys2Proof.Machine
end

