-- ==== Sys2Proof/Machine/Ops.lean ====
section
/-! DEFINITION. The named operations the meanings share: reading and writing registers, memory and pixels, the
commands to `PC` and to the stack (spec/40_step_cycle.md R101 to R107), how an instruction ends, and TAKING A FAULT
(spec/60_exceptions.md R224). There is no return from a fault (R231). -/

namespace Sys2Proof.Machine

/-- The answer of every event. -/
abbrev Answer := Host.Outcome State Fault Refusal

namespace State

/-! ### One field at a time -/

/-- `V[x]` (R8). -/
def getV (s : State) (x : Reg) : Byte := s.v[x.toNat]'x.isLt

/-- `V[x] <- b`. -/
def setV (s : State) (x : Reg) (b : Byte) : State := { s with v := s.v.set x.toNat b x.isLt }

/-- `I <- w`. -/
def setI (s : State) (w : Word) : State := { s with i := w }

/-- `PC <- w`. -/
def setPc (s : State) (w : Word) : State := { s with pc := w }

/-- `DT <- b`. -/
def setDt (s : State) (b : Byte) : State := { s with dt := b }

/-- `ST <- b`. -/
def setSt (s : State) (b : Byte) : State := { s with st := b }

/-- The framebuffer as a whole. -/
def setFb (s : State) (fb : Screen) : State := { s with fb := fb }

/-- `MODE <- m`. -/
def setMode (s : State) (m : Mode) : State := { s with mode := m }

/-- The memory as a whole. -/
def setMem (s : State) (m : Memory) : State := { s with mem := m }

/-- What the event returns. -/
def setReply (s : State) (r : Reply) : State := { s with reply := r }

/-- The register file as a whole, for the block load. -/
def setRegs (s : State) (v : Vector Byte 16) : State := { s with v := v }

/-- `MEM[a]` (R55). -/
def readByte (s : State) (a : Nat) : Byte := Memory.read s.mem a

/-! ### The fetch unit's commands to `PC` (R101) -/

/-- `skip` when the condition holds, else `keep`: `PC <- trunc16(PC + 2)`. -/
def skipIf (s : State) (c : Bool) : State := if c then s.setPc (s.pc + 2#16) else s

/-- `rewind`: `PC <- trunc16(PC - 2)`. -/
def rewind (s : State) : State := s.setPc (s.pc - 2#16)

/-! ### The stack engine (R105) -/

/-- `push`: `none` when the stack is full and nothing changes (overflow). -/
def push (s : State) (w : Word) : Option State :=
  if h : s.sp.val < 12 then
    some { s with stack := s.stack.set s.sp.val w h, sp := ⟨s.sp.val + 1, by omega⟩ }
  else none

/-- `pop`: `none` when the stack is empty and nothing changes (underflow); the slot keeps its value (R28). -/
def pop (s : State) : Option (State × Word) :=
  if h : 0 < s.sp.val then
    some ({ s with sp := ⟨s.sp.val - 1, by omega⟩ }, s.stack[s.sp.val - 1]'(by omega))
  else none

/-! ### The random byte (R144) -/

/-- The byte drawn for this step: the host's where it sent one, else a free value (log 4). -/
def drawnByte (s : State) : Byte :=
  match s.rndIn with
  | some b => b
  | none => Config.rnd s.draws

/-- One more byte has been drawn. -/
def countDraw (s : State) : State := { s with draws := s.draws + 1 }

end State

/-! ### The framebuffer (R34, R180, R182) -/

/-- `FB[idx]`, by the linear index `row * 64 + column`. -/
def pixel (fb : Screen) (idx : Nat) : Bool :=
  (fb[idx / 64 % 32]'(Nat.mod_lt _ (by decide))).getLsbD (idx % 64)

/-- `FB[idx] <- not FB[idx]`. -/
def togglePixel (fb : Screen) (idx : Nat) : Screen :=
  fb.set (idx / 64 % 32) (fb[idx / 64 % 32]'(Nat.mod_lt _ (by decide)) ^^^ BitVec.twoPow 64 (idx % 64))
    (Nat.mod_lt _ (by decide))

/-- Every pixel false. -/
def blankScreen : Screen := Vector.replicate 32 0#64

/-- Toggle pixels in order, noting whether any was set before its toggle (R182, R185). -/
def drawPixels : Screen × Bool → List Nat → Screen × Bool
  | acc, [] => acc
  | acc, idx :: rest => drawPixels (togglePixel acc.1 idx, acc.2 || pixel acc.1 idx) rest

/-! ### How an instruction ends -/

/-- The instruction ran: the step returns `Executed` (R221). -/
def retire (s : State) : Answer := .next (s.setReply (.cycle .executed))

/-- Fault entry (R224): `MODE <- Halted`, the outcome names the cause, the instruction's address `a` and its word
`w`, and nothing else changes. `s` is the state after the fetch advance (R97), so `a = PC - 2`, and the word is
the instruction's own (log 10). -/
def raiseFault (cause : Fault) (i : Instr) (s : State) : Answer :=
  .next ((s.setMode .halted).setReply (.cycle (.fault cause (s.pc - 2#16) (some (encode i)))))

/-- Fault entry for a fetch: `PC` keeps `a` and there is no word (R93, R224, R227). -/
def raiseFetchFault (s : State) : Answer :=
  .next ((s.setMode .halted).setReply (.cycle (.fault .addressOutOfRange s.pc none)))

end Sys2Proof.Machine
end

