-- ==== Sys2Proof/Machine/Operands.lean ====
section
/-! DEFINITION. The operand forms: the implicit registers, the zero-extended immediates (spec/30_encoding.md R72), the low
nibble of a register (spec/43_index_memory.md R162, spec/45_timers_keypad.md R206), the one addressing mode
(spec/43_index_memory.md R164), and the pixels of a sprite (spec/44_sprite_display.md R182, R183, R184). -/

namespace Sys2Proof.Machine

/-- `V0`, the offset register of `Bnnn` (R22). -/
abbrev v0 : Reg := 0x0#4

/-- `VF`, the flag (R21). -/
abbrev vf : Reg := 0xF#4

/-- `zext_16(nnn)` (R72). -/
def addrOperand (nnn : Addr12) : Word := nnn.setWidth 16

/-- `zext_16(V[x])` (R72, R161). -/
def wideReg (s : State) (x : Reg) : Word := (s.getV x).setWidth 16

/-- `V[x][3:0]`: the high nibble is ignored (R162, R206). -/
def lowNibble (s : State) (x : Reg) : Nibble := (s.getV x).setWidth 4

/-- `KEY[k]`. -/
def keyDown (s : State) (k : Nibble) : Bool := s.key[k.toNat]'k.isLt

/-- The least index at or after `k` whose key is down. -/
def leastDown : List Bool → Nat → Option Nat
  | [], _ => none
  | d :: ds, k => if d then some k else leastDown ds (k + 1)

/-- The least key that is down (R203). -/
def leastKeyDown (s : State) : Option Byte := (leastDown s.key.toList 0).map (BitVec.ofNat 8)

/-- `I`, the base of every memory instruction, as a natural: nothing is truncated (R59, R164). -/
def baseAddr (s : State) : Nat := s.i.toNat

/-- Whether `count` bytes from `base` all lie at or below 0xFFF; none at all always do (R60, R189). -/
def spanFits (base count : Nat) : Bool := count == 0 || decide (base + count ≤ Config.memSize)

/-- `V[0], …, V[x]` (R165). -/
def regBlock (s : State) (x : Reg) : List Byte := s.v.toList.take (x.toNat + 1)

/-- The register file with `V[0..x]` read from memory at `base` (R166). -/
def loadedRegs (s : State) (x : Reg) (base : Nat) : Vector Byte 16 :=
  Vector.ofFn fun (r : Fin 16) => if r.val ≤ x.toNat then s.readByte (base + r.val) else s.v[r.val]

/-- The three decimal digits of a byte, hundreds first (R163). -/
def bcdDigits (b : Byte) : List Byte :=
  [BitVec.ofNat 8 (b.toNat / 100), BitVec.ofNat 8 (b.toNat / 10 % 10), BitVec.ofNat 8 (b.toNat % 10)]

/-- The linear index of sprite pixel `(col, row)`: the sums are on naturals and wrap only at the end of the
buffer (R184). -/
def spriteIndex (vx vy row col : Nat) : Nat :=
  ((vy + row) * Config.fbWidth + (vx + col)) % (Config.fbWidth * Config.fbHeight)

/-- The indices a sprite byte toggles in row `row`, left to right: bit `7 - col` is column `col` (R183). -/
def spriteRowPixels (vx vy row : Nat) (b : Byte) : List Nat :=
  ((List.range 8).filter (fun col => b.getLsbD (7 - col))).map (spriteIndex vx vy row)

/-- The indices a sprite toggles, in the order of R182: rows ascending, columns ascending. -/
def spritePixels (vx vy : Nat) : Nat → List Byte → List Nat
  | _, [] => []
  | row, b :: bs => spriteRowPixels vx vy row b ++ spritePixels vx vy (row + 1) bs

end Sys2Proof.Machine
end

