-- ==== Sys2Proof/Machine/Flags.lean ====
section
/-! DEFINITION. The ALU (spec/42_alu.md R130): 8-bit results and the one-bit flag, computed from the original operands,
and the order of the two writes (R131). Exact arithmetic is on naturals and narrows at the end (R7). -/

namespace Sys2Proof.Machine

/-- An ALU result and its flag. -/
abbrev AluOut := Byte × Bool

/-- `trunc8(v) = v mod 256` (R7). -/
def trunc8 (v : Nat) : Byte := BitVec.ofNat 8 v

/-- A flag as the byte `VF` receives: exactly 0x00 or 0x01 (R32). -/
def flagByte (f : Bool) : Byte := if f then 0x01#8 else 0x00#8

/-- Add with carry out: the flag is `a + b > 255`. -/
def aluAdd (a b : Byte) : AluOut := (trunc8 (a.toNat + b.toNat), decide (a.toNat + b.toNat > 255))

/-- Subtract `a - b`: the flag is `a > b`, strictly (R139, 90_conflicts.md C1). -/
def aluSub (a b : Byte) : AluOut := (trunc8 (a.toNat + 256 - b.toNat), decide (a.toNat > b.toNat))

/-- Shift right by one: the flag is bit 0. -/
def aluShr (a : Byte) : AluOut := (trunc8 (a.toNat / 2), a.getLsbD 0)

/-- Shift left by one: the flag is bit 7. -/
def aluShl (a : Byte) : AluOut := (trunc8 (a.toNat * 2), a.getLsbD 7)

/-- The result to `V[x]` and THEN the flag to `VF` (R131). -/
def writeAlu (s : State) (x : Reg) (r : AluOut) : State := (s.setV x r.1).setV vf (flagByte r.2)

end Sys2Proof.Machine
end

