-- ==== Sys2Proof/Machine/Alu.lean ====
section
/-! DEFINITION. Register load, logic, arithmetic, shifts and random (spec/42_alu.md): none can fault (R145). -/

namespace Sys2Proof.Machine

/-- `6xkk`, R132. -/
def execLdImm (x : Reg) (kk : Byte) (s : State) : Answer := retire (s.setV x kk)

/-- `7xkk`, R133: `VF` is not a flag here. -/
def execAddImm (x : Reg) (kk : Byte) (s : State) : Answer :=
  retire (s.setV x (trunc8 ((s.getV x).toNat + kk.toNat)))

/-- `8xy0`, R134. -/
def execLdReg (x y : Reg) (s : State) : Answer := retire (s.setV x (s.getV y))

/-- `8xy1`, R135. -/
def execOr (x y : Reg) (s : State) : Answer := retire (s.setV x (s.getV x ||| s.getV y))

/-- `8xy2`, R136. -/
def execAnd (x y : Reg) (s : State) : Answer := retire (s.setV x (s.getV x &&& s.getV y))

/-- `8xy3`, R137. -/
def execXor (x y : Reg) (s : State) : Answer := retire (s.setV x (s.getV x ^^^ s.getV y))

/-- `8xy4`, R138. -/
def execAddReg (x y : Reg) (s : State) : Answer := retire (writeAlu s x (aluAdd (s.getV x) (s.getV y)))

/-- `8xy5`, R139. -/
def execSub (x y : Reg) (s : State) : Answer := retire (writeAlu s x (aluSub (s.getV x) (s.getV y)))

/-- `8xy6`, R140: the operand is `V[x]`; the field `y` is ignored. -/
def execShr (x : Reg) (s : State) : Answer := retire (writeAlu s x (aluShr (s.getV x)))

/-- `8xy7`, R141. -/
def execSubn (x y : Reg) (s : State) : Answer := retire (writeAlu s x (aluSub (s.getV y) (s.getV x)))

/-- `8xyE`, R142: the operand is `V[x]`; the field `y` is ignored. -/
def execShl (x : Reg) (s : State) : Answer := retire (writeAlu s x (aluShl (s.getV x)))

/-- `Cxkk`, R144. -/
def execRnd (x : Reg) (kk : Byte) (s : State) : Answer :=
  retire ((s.setV x (s.drawnByte &&& kk)).countDraw)

end Sys2Proof.Machine
end

