-- ==== Sys2Proof/Machine/Control.lean ====
section
/-! DEFINITION. Control transfer (spec/41_control_flow.md): `1nnn`, `2nnn`, `00EE`, `Bnnn` and the four register skips. In
every meaning `s.pc` is the advanced `PC`, the address of the instruction plus 2 (spec/40_step_cycle.md R94). -/

namespace Sys2Proof.Machine

/-- `1nnn`, R110. -/
def execJp (nnn : Addr12) (s : State) : Answer := retire (s.setPc (addrOperand nnn))

/-- `2nnn`, R111: pushes the advanced `PC`; full is `StackOverflow`. -/
def execCall (nnn : Addr12) (s : State) : Answer :=
  match s.push s.pc with
  | some s' => retire (s'.setPc (addrOperand nnn))
  | none => raiseFault .stackOverflow (.call nnn) s

/-- `00EE`, R112: empty is `StackUnderflow`. -/
def execRet (s : State) : Answer :=
  match s.pop with
  | some (s', w) => retire (s'.setPc w)
  | none => raiseFault .stackUnderflow .ret s

/-- `Bnnn`, R113: a 16-bit sum, not reduced to 12 bits. -/
def execJpV0 (nnn : Addr12) (s : State) : Answer := retire (s.setPc (addrOperand nnn + wideReg s v0))

/-- `3xkk`, R114. -/
def execSeImm (x : Reg) (kk : Byte) (s : State) : Answer := retire (s.skipIf (s.getV x == kk))

/-- `4xkk`, R115. -/
def execSneImm (x : Reg) (kk : Byte) (s : State) : Answer := retire (s.skipIf (s.getV x != kk))

/-- `5xy0`, R116. -/
def execSeReg (x y : Reg) (s : State) : Answer := retire (s.skipIf (s.getV x == s.getV y))

/-- `9xy0`, R117. -/
def execSneReg (x y : Reg) (s : State) : Answer := retire (s.skipIf (s.getV x != s.getV y))

end Sys2Proof.Machine
end

