-- ==== Sys2Proof/Machine/Display.lean ====
section
/-! DEFINITION. The display instructions (spec/44_sprite_display.md): clear, and draw with the collision flag. -/

namespace Sys2Proof.Machine

/-- `00E0`, R181. -/
def execCls (s : State) : Answer := retire (s.setFb blankScreen)

/-- `Dxyn`, R182: the coordinates are read before `VF` is written (R188); no byte and no check for `n = 0` (R189). -/
def execDrw (x y : Reg) (n : Nibble) (s : State) : Answer :=
  if spanFits (baseAddr s) n.toNat then
    let sprite := Memory.readSpan s.mem (baseAddr s) n.toNat
    let drawn := drawPixels (s.fb, false) (spritePixels (s.getV x).toNat (s.getV y).toNat 0 sprite)
    retire ((s.setFb drawn.1).setV vf (flagByte drawn.2))
  else raiseFault .addressOutOfRange (.drw x y n) s

end Sys2Proof.Machine
end

