-- ==== Sys2Proof/Machine/Index.lean ====
section
/-! DEFINITION. The index register and the memory transfers (spec/43_index_memory.md). The whole span is checked before any
byte moves (spec/20_memory.md R60); `I` is never changed by a memory instruction (R164, R168). -/

namespace Sys2Proof.Machine

/-- `Annn`, R160. -/
def execLdI (nnn : Addr12) (s : State) : Answer := retire (s.setI (addrOperand nnn))

/-- `Fx1E`, R161: modulo 65536, `VF` unchanged. -/
def execAddI (x : Reg) (s : State) : Answer := retire (s.setI (s.i + wideReg s x))

/-- `Fx29`, R162: `0x0050 + 5 * d`. -/
def execLdF (x : Reg) (s : State) : Answer :=
  retire (s.setI (BitVec.ofNat 16 (0x0050 + 5 * (lowNibble s x).toNat)))

/-- `Fx33`, R163. -/
def execLdB (x : Reg) (s : State) : Answer :=
  if spanFits (baseAddr s) 3 then
    retire (s.setMem (Memory.writeSpan s.mem (baseAddr s) (bcdDigits (s.getV x))))
  else raiseFault .addressOutOfRange (.ldB x) s

/-- `Fx55`, R165. -/
def execStRegs (x : Reg) (s : State) : Answer :=
  if spanFits (baseAddr s) (x.toNat + 1) then
    retire (s.setMem (Memory.writeSpan s.mem (baseAddr s) (regBlock s x)))
  else raiseFault .addressOutOfRange (.stRegs x) s

/-- `Fx65`, R166. -/
def execLdRegs (x : Reg) (s : State) : Answer :=
  if spanFits (baseAddr s) (x.toNat + 1) then
    retire (s.setRegs (loadedRegs s x (baseAddr s)))
  else raiseFault .addressOutOfRange (.ldRegs x) s

end Sys2Proof.Machine
end

