-- ==== Sys2Proof/Machine/Timers.lean ====
section
/-! DEFINITION. The timer and keypad instructions (spec/45_timers_keypad.md): none can fault. -/

namespace Sys2Proof.Machine

/-- `Fx07`, R200. -/
def execLdVxDt (x : Reg) (s : State) : Answer := retire (s.setV x s.dt)

/-- `Fx15`, R201. -/
def execLdDtVx (x : Reg) (s : State) : Answer := retire (s.setDt (s.getV x))

/-- `Fx18`, R202. -/
def execLdStVx (x : Reg) (s : State) : Answer := retire (s.setSt (s.getV x))

/-- `Fx0A`, R203: the least key down, else back to the instruction itself. -/
def execLdVxK (x : Reg) (s : State) : Answer :=
  match leastKeyDown s with
  | some k => retire (s.setV x k)
  | none => retire s.rewind

/-- `Ex9E`, R206. -/
def execSkp (x : Reg) (s : State) : Answer := retire (s.skipIf (keyDown s (lowNibble s x)))

/-- `ExA1`, R207. -/
def execSknp (x : Reg) (s : State) : Answer := retire (s.skipIf (!keyDown s (lowNibble s x)))

end Sys2Proof.Machine
end

