-- ==== Sys2Proof/WellFormed.lean ====
section
/-! DEFINITION. The checks on what comes from outside the CORE: a ROM image (spec/70_reset_and_hazards.md R252)
and a key index (spec/45_timers_keypad.md R209). An instruction needs no check of its own: every 4-bit selector
names a register (spec/10_state.md R20) and every kk, n and nnn is legal (spec/30_encoding.md R72, R79), and the
operand types of `Instr` are exactly those fields, so an ill-formed instruction cannot be written. -/

namespace Sys2Proof

/-- `bytes.length <= 4096 - 0x200` (R252). -/
def Rom.wellFormed (bytes : List Byte) : Bool := decide (bytes.length ≤ Config.maxRomSize)

/-- `index` in 0..15 (R209). -/
def KeyIndex.wellFormed (index : Nat) : Bool := decide (index < 16)

end Sys2Proof
end

