-- ==== Sys2Proof/Machine/Events.lean ====
section
/-! DEFINITION. The events of the host other than `STEP` (spec/70_reset_and_hazards.md R250 to R262,
spec/45_timers_keypad.md R204, R205, R209). Each acts in every `MODE` and changes only what its rule says. -/

namespace Sys2Proof.Machine

/-- One timer on a tick: decremented if nonzero, floor at zero (R204). -/
def tickTimer (t : Byte) : Byte := if t = 0x00#8 then 0x00#8 else t - 0x01#8

/-- `TICK` (R204). -/
def tickEvent (s : State) : State := ((s.setDt (tickTimer s.dt)).setSt (tickTimer s.st)).setReply .nothing

/-- `SET_KEY(index, down)` (R209): an index outside 0..15 is refused and has no effect. -/
def setKeyEvent (index : Nat) (down : Bool) (s : State) : State :=
  if KeyIndex.wellFormed index then
    { s with key := s.key.setIfInBounds index down, reply := .nothing }
  else s.setReply .refused

/-- `PAUSE` (R261): Running to Paused, else no effect. -/
def pauseEvent (s : State) : State :=
  (if s.mode = .running then s.setMode .paused else s).setReply .nothing

/-- `RESUME` (R261): Paused to Running, else no effect. -/
def resumeEvent (s : State) : State :=
  (if s.mode = .paused then s.setMode .running else s).setReply .nothing

/-- `HALT` (R261): Halted from any mode. -/
def haltEvent (s : State) : State := (s.setMode .halted).setReply .nothing

/-- `LOAD(bytes)` (R252): copies the bytes from 0x200 and changes nothing else, or is too large and changes nothing;
outside its place in the lifecycle it is refused (R253; log 5). -/
def loadEvent (bytes : List Byte) (s : State) : State :=
  if s.loadable then
    if Rom.wellFormed bytes then
      { s with mem := Memory.writeSpan s.mem Config.loadBase bytes, reply := .loadOk, loadable := false }
    else s.setReply .programTooLarge
  else s.setReply .refused

/-- `RESET` (R250): every piece of the machine's state to its reset value, in any mode. What the host is still going
to raise, and how many bytes the random source outside the CORE has drawn, are not the machine's (R39; log 1, log 4). -/
def resetEvent (s : State) : State :=
  { State.reset with hostEvents := s.hostEvents, draws := s.draws }

/-- `sound_active` (R205): a function of `ST`, not state. -/
def State.soundActive (s : State) : Bool := s.st != 0x00#8

end Sys2Proof.Machine
end

