-- ==== Sys2Proof/Machine/Cycle.lean ====
section
/-! DEFINITION. The step cycle (spec/40_step_cycle.md R92 to R98, assembled in R108) and the dispatch of the host's events
(R91). -/

namespace Sys2Proof.Machine

/-- Whether both bytes of the word at `PC` lie in memory: `PC + 1 <= 0xFFF` (R93, R60). -/
def fetchFits (s : State) : Bool := spanFits s.pc.toNat 2

/-- `w = MEM[PC] ++ MEM[PC+1]` (R93). -/
def fetchWord (s : State) : Word := Word.ofBytes (s.readByte s.pc.toNat) (s.readByte (s.pc.toNat + 1))

/-- `PC <- trunc16(a + 2)` (R94). -/
def advance (s : State) : State := s.setPc (s.pc + 2#16)

/-- The unknown opcode (R223): `PC` is already past it; a diagnostic naming `a` and `w`, and nothing else. -/
def unknownOpcode (w : Word) (s : State) : Answer :=
  .next (s.setReply (.cycle (.unknownOpcode (s.pc - 2#16) w)))

/-- Fetch, advance, decode and execute, for a running machine (R93 to R96). -/
def fetchDecodeExecute (s : State) : Answer :=
  if fetchFits s then
    match decodeWord (fetchWord s) with
    | .ok i => exec i (advance s)
    | .error _ => unknownOpcode (fetchWord s) (advance s)
  else raiseFetchFault s

/-- What the host hands a step: its random byte, if it sends one (R262); and a load is no longer possible (R253). -/
def acceptStep (rnd : Option Byte) (s : State) : State := { s with rndIn := rnd, loadable := false }

/-- `STEP(rnd)` (R108): idle unless Running (R92). -/
def stepEvent (rnd : Option Byte) (s : State) : Answer :=
  if s.mode = .running then fetchDecodeExecute (acceptStep rnd s)
  else .next ({ s with loadable := false }.setReply (.cycle .idle))

/-- One event of the host (R91). -/
def handle (e : Event) (s : State) : Answer :=
  match e with
  | .step rnd => stepEvent rnd s
  | .tick => .next (tickEvent s)
  | .setKey index down => .next (setKeyEvent index down s)
  | .pause => .next (pauseEvent s)
  | .resume => .next (resumeEvent s)
  | .halt => .next (haltEvent s)
  | .load bytes => .next (loadEvent bytes s)
  | .reset => .next (resetEvent s)

/-- The event that happens next: the host's first, or `STEP` with the generator's byte where none is listed (log 1). -/
def nextEvent (s : State) : Event := s.hostEvents.headD (.step none)

/-- The state with that event taken from the host's list. -/
def takeEvent (s : State) : State := { s with hostEvents := s.hostEvents.tail }

/-- Where the next instruction is fetched, and 0x200 where nothing can be fetched (log 11). -/
def fetchAddress (s : State) : Word := if fetchFits s then s.pc else 0x0200#16

/-- `s` made ready to run the word `w` in its very next step (log 11). -/
def placeWord (s : State) (w : Word) : State :=
  { s with
    pc := fetchAddress s
    mode := .running
    hostEvents := []
    mem := Memory.writeSpan s.mem (fetchAddress s).toNat w.toBytes }

end Sys2Proof.Machine
end

