-- ==== Sys2Proof/Machine/Step.lean ====
section
/-! DEFINITION. One step of the machine: one event of the host (spec/40_step_cycle.md R91), which is `STEP` where the host has
listed none; and placing an instruction word where the next step fetches. -/

namespace Sys2Proof.Machine

/-- The machine's step. -/
def step (s : State) : Host.Outcome State Fault Refusal := handle (nextEvent s) (takeEvent s)

/-- The instruction whose bits are the low `nbits` bits of `w`, stored where `step` fetches its next. -/
def State.withFetchWord (s : State) (nbits w : Nat) : State := placeWord s (tableWord nbits w)

end Sys2Proof.Machine
end

