-- ==== Sys2Proof/Safety.lean ====
section
/-! DEFINITION. What the claims are stated in: the parts of the state and what it is for a step to keep one (the frames),
how an instruction ended, and the invariant of the machine (spec/10_state.md R25, R42; spec/20_memory.md R50). -/

namespace Sys2Proof.Machine

/-- The parts of the state, for frames. -/
inductive Part where
  /-- `V[0..15]` -/
  | regs
  /-- `I` -/
  | index
  | pc
  /-- the stack slots and `SP` -/
  | stack
  /-- `DT` -/
  | delay
  /-- `ST` -/
  | sound
  /-- `FB` -/
  | screen
  | mode
  /-- every byte of `MEM` -/
  | memory
  /-- the count of random bytes drawn -/
  | draws
  /-- `KEY`, the byte the host sent, the host's coming events, and whether a load is possible -/
  | inputs
  deriving DecidableEq, Repr

/-- From `s` to `t` this part is unchanged; memory is compared byte by byte as it reads. -/
def Part.kept : Part → State → State → Prop
  | .regs, s, t => ∀ r, t.getV r = s.getV r
  | .index, s, t => t.i = s.i
  | .pc, s, t => t.pc = s.pc
  | .stack, s, t => t.stack = s.stack ∧ t.sp = s.sp
  | .delay, s, t => t.dt = s.dt
  | .sound, s, t => t.st = s.st
  | .screen, s, t => t.fb = s.fb
  | .mode, s, t => t.mode = s.mode
  | .memory, s, t => ∀ a, t.readByte a = s.readByte a
  | .draws, s, t => t.draws = s.draws
  | .inputs, s, t =>
    t.key = s.key ∧ t.rndIn = s.rndIn ∧ t.hostEvents = s.hostEvents ∧ t.loadable = s.loadable

/-- Every part but those listed is unchanged. -/
def KeptBut (ps : List Part) (s t : State) : Prop := ∀ p, p ∉ ps → p.kept s t

/-- Every register but those listed is unchanged. -/
def RegsKeptBut (ds : List Reg) (s t : State) : Prop := ∀ r, r ∉ ds → t.getV r = s.getV r

/-- Every byte of memory outside the `n` bytes from `lo` reads as before. -/
def MemoryKeptBut (lo n : Nat) (s t : State) : Prop :=
  ∀ a, ¬ (lo ≤ a ∧ a < lo + n) → t.readByte a = s.readByte a

/-- The step returned `Executed` (spec/60_exceptions.md R221). -/
def Executed (t : State) : Prop := t.reply = .cycle .executed

/-- The step returned this fault for the instruction `i`, which stood at `s.pc - 2` (R221, R224). -/
def Faulted (cause : Fault) (i : Instr) (s t : State) : Prop :=
  t.reply = .cycle (.fault cause (s.pc - 2#16) (some (encode i)))

/-- The invariant: memory is in its canonical form; `PC` is at most 0x10FE (R25); every stack slot holds at most
0x1000, the largest return address (R25, R111). `SP` is at most 12 by its type (R27). -/
def State.Inv (s : State) : Prop :=
  Memory.wf s.mem ∧ s.pc.toNat ≤ 0x10FE ∧ ∀ (k : Nat) (h : k < 12), s.stack[k].toNat ≤ 0x1000

/-- The cause table (spec/60_exceptions.md R222 with R60, R225, R226): when an instruction raises this fault. -/
def FaultCondition (c : Fault) (i : Instr) (s : State) : Prop :=
  match c, i with
  | .stackOverflow, .call _ => s.sp.val = 12
  | .stackUnderflow, .ret => s.sp.val = 0
  | .addressOutOfRange, .drw _ _ n => 1 ≤ n.toNat ∧ s.i.toNat + n.toNat - 1 > 0xFFF
  | .addressOutOfRange, .ldB _ => s.i.toNat + 2 > 0xFFF
  | .addressOutOfRange, .stRegs x => s.i.toNat + x.toNat > 0xFFF
  | .addressOutOfRange, .ldRegs x => s.i.toNat + x.toNat > 0xFFF
  | _, _ => False

/-- The instructions that write `VF` as a flag (R21). -/
def writesFlag : Instr → Bool
  | .addReg _ _ | .sub _ _ | .shr _ _ | .subn _ _ | .shl _ _ | .drw _ _ _ => true
  | _ => false

/-- The destination registers of an instruction, the flag apart: one `V[x]`, or the block `V[0..x]` of `Fx65`. -/
def destRegs : Instr → List Reg
  | .ldImm x _ | .addImm x _ | .ldReg x _ | .orReg x _ | .andReg x _ | .xorReg x _ | .addReg x _ | .sub x _
  | .shr x _ | .subn x _ | .shl x _ | .rnd x _ | .ldVxDt x | .ldVxK x => [x]
  | .ldRegs x => (List.range (x.toNat + 1)).map (BitVec.ofNat 4)
  | _ => []

/-- The parts of the state an instruction may write at all (spec/10_state.md R23, R25, R26, R29, R30, R33, R34): every
other part is never written by it. `mode` stands where the instruction can fault. -/
def mayWrite : Instr → List Part
  | .cls => [.screen]
  | .ret | .call _ => [.pc, .stack, .mode]
  | .jp _ | .jpV0 _ | .seImm _ _ | .sneImm _ _ | .seReg _ _ | .sneReg _ _ | .skp _ | .sknp _ => [.pc]
  | .ldImm _ _ | .addImm _ _ | .ldReg _ _ | .orReg _ _ | .andReg _ _ | .xorReg _ _ | .addReg _ _ | .sub _ _
  | .shr _ _ | .subn _ _ | .shl _ _ | .ldVxDt _ => [.regs]
  | .rnd _ _ => [.regs, .draws]
  | .ldVxK _ => [.regs, .pc]
  | .ldI _ | .addI _ | .ldF _ => [.index]
  | .drw _ _ _ => [.regs, .screen, .mode]
  | .ldDtVx _ => [.delay]
  | .ldStVx _ => [.sound]
  | .ldB _ | .stRegs _ => [.memory, .mode]
  | .ldRegs _ => [.regs, .mode]

/-- The word at address `a`, for statements about what stands in memory: both bytes exist and they decode to `i`. -/
def InstrAt (i : Instr) (s : State) (a : Nat) : Prop :=
  a + 1 ≤ 0xFFF ∧ ∃ rest, decode (Memory.readSpan s.mem a 2) = .ok (i, rest)

/-- A machine that is about to execute the instruction `i` with the generator's random byte: Running, no event of the
host before the step, and `i` at `PC`. -/
def Ready (i : Instr) (s : State) : Prop :=
  s.mode = .running ∧ s.hostEvents = [] ∧ InstrAt i s s.pc.toNat

/-- Sprite pixel `(col, row)` of the sprite at `I` is set: bit `7 - col` of `MEM[I + row]` (spec/44_sprite_display.md
R183), and it lands on index `j`: `((V[y] + row) * 64 + (V[x] + col)) mod 2048` (R184). -/
def SpriteHits (s : State) (x y : Reg) (n : Nibble) (j : Nat) : Prop :=
  ∃ row col, row < n.toNat ∧ col < 8 ∧ (s.readByte (s.i.toNat + row)).getLsbD (7 - col) = true ∧
    j = (((s.getV y).toNat + row) * 64 + ((s.getV x).toNat + col)) % 2048

end Sys2Proof.Machine
end

