-- ==== Sys2Proof/Certificates/Slice0/Obligations.lean ====
section
/-! DEFINITION. The statements about the model, for the provers. In every statement about `exec`, the state `s` is the one
after the fetch advance, so `s.pc` is the address of the instruction plus 2 (spec/40_step_cycle.md R94, R96). -/

open Sys2Proof Sys2Proof.Machine

/-! ### Encoding -/

/-- 30_encoding.md section 3 and 95_test_vectors.md: words of every family, as bytes in memory order, decode to the
instruction they stand for. That the high byte comes first in memory is the spec's decision D1 (log 9), and the rows the
source does not spell are its decision D2 (log 8). -/
def Obligations.SpelledWordsDecode : Prop :=
  decode [0x00, 0xE0] = .ok (.cls, []) ∧ decode [0x00, 0xEE] = .ok (.ret, []) ∧
  decode [0x23, 0x45] = .ok (.call 0x345#12, []) ∧ decode [0x80, 0x14] = .ok (.addReg 0x0#4 0x1#4, []) ∧
  decode [0x80, 0x15] = .ok (.sub 0x0#4 0x1#4, []) ∧ decode [0xC3, 0x0F] = .ok (.rnd 0x3#4 0x0F#8, []) ∧
  decode [0xD1, 0x25] = .ok (.drw 0x1#4 0x2#4 0x5#4, []) ∧ decode [0xF2, 0x0A] = .ok (.ldVxK 0x2#4, []) ∧
  decode [0xF4, 0x33] = .ok (.ldB 0x4#4, []) ∧ decode [0xF2, 0x55] = .ok (.stRegs 0x2#4, []) ∧
  decode [0xF1, 0x65] = .ok (.ldRegs 0x1#4, [])

/-- 30_encoding.md R82: decoding the two bytes of any instruction, whatever follows them, gives back the instruction with
every operand, and the bytes that follow. -/
def Obligations.DecodeInvertsEncode : Prop :=
  ∀ (i : Instr) (rest : List Byte), decode (encodeBytes i ++ rest) = .ok (i, rest)

/-- 30_encoding.md R82: decoding then encoding a defined instruction gives back the same word; the field `y` of `8xy6` and
`8xyE` is kept by `Instr`, so the word is the same there too. -/
def Obligations.EncodeInvertsDecode : Prop :=
  ∀ (w : Word) (i : Instr), decodeWord w = .ok i → encode i = w

/-- 30_encoding.md R74, R75: the decoder accepts exactly the words that some row of the opcode map selects by
`w & mask = match`, and the row is the decoded instruction's own. -/
def Obligations.DecoderFollowsOpcodeMap : Prop :=
  ∀ (w : Word),
    ((∃ i, decodeWord w = .ok i) ↔ ∃ r ∈ opcodeTable, OpcodeRow.selects r w = true) ∧
    ∀ i, decodeWord w = .ok i → OpcodeRow.selects (opcodeRow i) w = true

/-- 30_encoding.md R75: the map has 34 rows and they are pairwise disjoint. -/
def Obligations.OpcodeRowsAreDisjoint : Prop :=
  opcodeTable.length = 34 ∧
  ∀ (w : Word), ∀ r ∈ opcodeTable, ∀ r' ∈ opcodeTable,
    OpcodeRow.selects r w = true → OpcodeRow.selects r' w = true → r = r'

/-- 30_encoding.md R77: the words that are no instruction, class by class, by the fields of the word (as numbers:
group `w / 4096`, `nnn = w mod 4096`, `kk = w mod 256`, `n = w mod 16`). -/
def Obligations.UnknownWordClasses : Prop :=
  ∀ (w : Word),
    (∃ e, decodeWord w = .error e) ↔
      (w.toNat / 4096 = 0x0 ∧ w.toNat % 4096 ≠ 0x0E0 ∧ w.toNat % 4096 ≠ 0x0EE) ∨
      (w.toNat / 4096 = 0x5 ∧ w.toNat % 16 ≠ 0) ∨
      (w.toNat / 4096 = 0x8 ∧ w.toNat % 16 ∈ [0x8, 0x9, 0xA, 0xB, 0xC, 0xD, 0xF]) ∨
      (w.toNat / 4096 = 0x9 ∧ w.toNat % 16 ≠ 0) ∨
      (w.toNat / 4096 = 0xE ∧ w.toNat % 256 ∉ [0x9E, 0xA1]) ∨
      (w.toNat / 4096 = 0xF ∧ w.toNat % 256 ∉ [0x07, 0x0A, 0x15, 0x18, 0x1E, 0x29, 0x33, 0x55, 0x65])

/-! ### The step -/

/-- 40_step_cycle.md R93 to R96, R108: on a running machine whose next event is a `STEP`, when the two bytes at `PC` decode
to `i`, the step is `exec` of `i` on the state with `PC` advanced by 2. What the step adds of the model's own (logs 1, 4, 5):
the event is taken from the host's list, its random byte is put at `rndIn`, and no load is possible any more. -/
def Obligations.StepRunsDecodedInstruction : Prop :=
  ∀ (s : State) (i : Instr) (rnd : Option Byte),
    nextEvent s = .step rnd → s.mode = .running → InstrAt i s s.pc.toNat →
    step s = exec i { s with
      hostEvents := s.hostEvents.tail, rndIn := rnd, loadable := false, pc := s.pc + 2#16 }

/-- 40_step_cycle.md R92: a step on a machine that is not Running changes no state, reads no memory, draws no byte and
returns `Idle`. (Only the model's record of the host's events moves on, logs 1 and 5.) -/
def Obligations.StepIsIdleUnlessRunning : Prop :=
  ∀ (s : State) (rnd : Option Byte),
    nextEvent s = .step rnd → s.mode ≠ .running →
    ∃ t, step s = .next t ∧ t.reply = .cycle .idle ∧ KeptBut [.inputs] s t ∧
      t.key = s.key ∧ t.rndIn = s.rndIn ∧ t.hostEvents = s.hostEvents.tail

/-- 40_step_cycle.md R93 with the spec's decisions D5 and D18: a fetch that would pass 0xFFF halts the machine; `PC` is not
advanced, there is no word, and nothing else changes. -/
def Obligations.FetchOutOfRangeHalts : Prop :=
  ∀ (s : State) (rnd : Option Byte),
    nextEvent s = .step rnd → s.mode = .running → s.pc.toNat + 1 > 0xFFF →
    ∃ t, step s = .next t ∧ t.mode = .halted ∧ t.reply = .cycle (.fault .addressOutOfRange s.pc none) ∧
      KeptBut [.mode, .inputs] s t ∧ t.key = s.key

/-- 60_exceptions.md section 2 (the form of the diagnostic is the spec's decision D20; that the byte at the lower address is
the high byte of the reported word is its decision D1, log 9): an unknown word at `PC` advances `PC` past it, reports its
address and itself, and changes nothing else; the mode stays Running. -/
def Obligations.UnknownOpcodeIsSkipped : Prop :=
  ∀ (s : State) (rnd : Option Byte) (e : Reject),
    nextEvent s = .step rnd → s.mode = .running → s.pc.toNat + 1 ≤ 0xFFF →
    decode [s.readByte s.pc.toNat, s.readByte (s.pc.toNat + 1)] = .error e →
    ∃ t, step s = .next t ∧ t.pc.toNat = s.pc.toNat + 2 ∧ t.mode = .running ∧
      (∃ w : Word, t.reply = .cycle (.unknownOpcode s.pc w) ∧
        w.toNat = 256 * (s.readByte s.pc.toNat).toNat + (s.readByte (s.pc.toNat + 1)).toNat) ∧
      KeptBut [.pc, .inputs] s t ∧ t.key = s.key

/-- 20_memory.md R56 (the byte order is the spec's decision D1): the byte at the lower address is the high byte of the
fetched word, for odd and even `PC` alike (R58). -/
def Obligations.FetchIsBigEndian : Prop :=
  ∀ (s : State),
    (fetchWord s).toNat = 256 * (s.readByte s.pc.toNat).toNat + (s.readByte (s.pc.toNat + 1)).toNat

/-- 40_step_cycle.md R99: a step always ends in a state, whatever the state and the events; so a run of any length never
stops on a fault or a refusal of the model. -/
def Obligations.RunNeverStops : Prop :=
  ∀ (k : Nat) (s : State), ∃ t, Host.Core.run Sys2Proof.core k s = .next t

/-! ### Faults, modes, and what an instruction may write -/

/-- 60_exceptions.md R222: every instruction answers a next state; it returns the fault of a cause exactly under that
cause's condition, and `Executed` exactly when no condition holds. -/
def Obligations.FaultsExactlyWhenCauseTableSays : Prop :=
  ∀ (i : Instr) (s : State), ∃ t, exec i s = .next t ∧
    (∀ c, Faulted c i s t ↔ FaultCondition c i s) ∧
    (Executed t ↔ ∀ c, ¬ FaultCondition c i s)

/-- 60_exceptions.md R224 (that `PC` keeps the advanced value is the spec's decision D18): when an instruction raises a
fault, `MODE` becomes Halted, the outcome names the cause, the instruction's address and its word, and nothing else
changes. -/
def Obligations.FaultEntryChangesNothingElse : Prop :=
  ∀ (i : Instr) (s t : State) (c : Fault) (a : Word) (w : Option Word),
    exec i s = .next t → t.reply = .cycle (.fault c a w) →
    t = { s with mode := .halted, reply := .cycle (.fault c a w) } ∧ a + 2#16 = s.pc ∧ w = some (encode i)

/-- 10_state.md R30, 60_exceptions.md R224: an instruction leaves `MODE` as it is, or raises a fault and halts. -/
def Obligations.OnlyFaultsChangeMode : Prop :=
  ∀ (i : Instr) (s t : State), exec i s = .next t →
    (Executed t ∧ t.mode = s.mode) ∨ (t.mode = .halted ∧ ∃ c, Faulted c i s t)

/-- 60_exceptions.md R231 and 70_reset_and_hazards.md R261 (decisions D23, D33): a halted machine stays halted, whatever
events come, as long as the host raises no `RESET`; its registers, `I`, `PC`, stack and framebuffer never change again. -/
def Obligations.HaltedIsTerminal : Prop :=
  ∀ (k : Nat) (s t : State), s.mode = .halted → Event.reset ∉ s.hostEvents →
    Host.Core.run Sys2Proof.core k s = .next t →
    t.mode = .halted ∧ KeptBut [.delay, .sound, .memory, .inputs] s t

/-- 10_state.md sections 1 and 6: an instruction changes no register but its destinations and, for the six flag writers,
`VF`; and a flag writer that runs leaves exactly 0x00 or 0x01 in `VF`. That the logic instructions keep `VF` is the spec's
decision D9, that `7xkk` and `Fx1E` keep it D10, and that `VF` as a destination ends with the flag D7 (all log 12). -/
def Obligations.RegistersWrittenAndFlagValues : Prop :=
  ∀ (i : Instr) (s t : State), exec i s = .next t →
    RegsKeptBut (destRegs i ++ if writesFlag i then [0xF#4] else []) s t ∧
    (writesFlag i = true → Executed t → t.getV 0xF#4 = 0x00#8 ∨ t.getV 0xF#4 = 0x01#8)

/-- 10_state.md R23, R25, R26, R29, R33, R34, R35: each part of the state is written only by the instructions the spec
names for it; `KEY` and the other inputs by none. -/
def Obligations.EachPartHasItsWriters : Prop :=
  ∀ (i : Instr) (s t : State), exec i s = .next t → KeptBut (mayWrite i) s t

/-! ### Control transfer -/

/-- 41_control_flow.md section 1, `1nnn` (encoding and meaning are the spec's decision D2, log 8). -/
def Obligations.JumpSetsPc : Prop :=
  ∀ (nnn : Addr12) (s : State), ∃ t, exec (.jp nnn) s = .next t ∧ Executed t ∧
    t.pc.toNat = nnn.toNat ∧ KeptBut [.pc] s t

/-- 41_control_flow.md section 1, `Bnnn` (encoding and meaning are the spec's decision D2, log 8; that the sum is not
reduced to 12 bits its decision D11, log 12). -/
def Obligations.JumpWithOffsetAddsV0 : Prop :=
  ∀ (nnn : Addr12) (s : State), ∃ t, exec (.jpV0 nnn) s = .next t ∧ Executed t ∧
    t.pc.toNat = nnn.toNat + (s.getV 0x0#4).toNat ∧ KeptBut [.pc] s t

/-- 41_control_flow.md R111: a call pushes the advanced `PC` and jumps; at depth 12 it pushes nothing, `PC` stays
advanced and the machine halts with `StackOverflow`. -/
def Obligations.CallPushesAdvancedPc : Prop :=
  ∀ (nnn : Addr12) (s : State),
    (s.sp.val < 12 → ∃ t, exec (.call nnn) s = .next t ∧ Executed t ∧
      t.pc.toNat = nnn.toNat ∧ t.sp.val = s.sp.val + 1 ∧
      (∀ (k : Nat) (h : k < 12), t.stack[k] = if k = s.sp.val then s.pc else s.stack[k]) ∧
      KeptBut [.pc, .stack] s t) ∧
    (s.sp.val = 12 → ∃ t, exec (.call nnn) s = .next t ∧ Faulted .stackOverflow (.call nnn) s t ∧
      t.mode = .halted ∧ KeptBut [.mode] s t)

/-- 41_control_flow.md R112: a return pops the top slot into `PC` and the slot keeps its value; at depth 0 it pops
nothing, `PC` stays advanced and the machine halts with `StackUnderflow`. -/
def Obligations.ReturnPopsTopIntoPc : Prop :=
  ∀ (s : State),
    (∀ (d : Nat) (h : d < 12), s.sp.val = d + 1 → ∃ t, exec .ret s = .next t ∧ Executed t ∧
      t.pc = s.stack[d] ∧ t.sp.val = d ∧ t.stack = s.stack ∧ KeptBut [.pc, .stack] s t) ∧
    (s.sp.val = 0 → ∃ t, exec .ret s = .next t ∧ Faulted .stackUnderflow .ret s t ∧
      t.mode = .halted ∧ KeptBut [.mode] s t)

/-- 41_control_flow.md R119 (derived there from R111 and R112): a call at any depth 0 to 11 whose target holds a return
leaves, after the two steps, `PC` at the address after the call and the depth as before, with that address in the slot.
Of the inputs the keys are kept and no event is listed; the model's record of the steps (logs 4, 5) is as said. -/
def Obligations.CallThenReturnResumes : Prop :=
  ∀ (s : State) (nnn : Addr12) (d : Nat) (h : d < 12),
    Ready (.call nnn) s → s.sp.val = d → InstrAt .ret s nnn.toNat →
    ∃ t, Host.Core.run Sys2Proof.core 2 s = .next t ∧ Executed t ∧
      t.pc.toNat = s.pc.toNat + 2 ∧ t.sp = s.sp ∧ t.stack[d].toNat = s.pc.toNat + 2 ∧
      (∀ (k : Nat) (hk : k < 12), k ≠ d → t.stack[k] = s.stack[k]) ∧ KeptBut [.pc, .stack, .inputs] s t ∧
      t.key = s.key ∧ t.hostEvents = [] ∧ t.rndIn = none ∧ t.loadable = false

/-- 41_control_flow.md R114 to R117 (encodings and meanings are the spec's decision D2): the four skips advance `PC` by a
further 2 exactly when their comparison holds. -/
def Obligations.RegisterSkips : Prop :=
  ∀ (x y : Reg) (kk : Byte) (s : State),
    (∃ t, exec (.seImm x kk) s = .next t ∧ Executed t ∧ KeptBut [.pc] s t ∧
      t.pc.toNat = if (s.getV x).toNat = kk.toNat then (s.pc.toNat + 2) % 65536 else s.pc.toNat) ∧
    (∃ t, exec (.sneImm x kk) s = .next t ∧ Executed t ∧ KeptBut [.pc] s t ∧
      t.pc.toNat = if (s.getV x).toNat ≠ kk.toNat then (s.pc.toNat + 2) % 65536 else s.pc.toNat) ∧
    (∃ t, exec (.seReg x y) s = .next t ∧ Executed t ∧ KeptBut [.pc] s t ∧
      t.pc.toNat = if (s.getV x).toNat = (s.getV y).toNat then (s.pc.toNat + 2) % 65536 else s.pc.toNat) ∧
    (∃ t, exec (.sneReg x y) s = .next t ∧ Executed t ∧ KeptBut [.pc] s t ∧
      t.pc.toNat = if (s.getV x).toNat ≠ (s.getV y).toNat then (s.pc.toNat + 2) % 65536 else s.pc.toNat)

/-! ### Register load and arithmetic -/

/-- 42_alu.md sections 2 and 3, `6xkk` and `8xy0` (encodings and meanings are the spec's decision D2, log 8). -/
def Obligations.LoadImmediateAndCopy : Prop :=
  ∀ (x y : Reg) (kk : Byte) (s : State),
    (∃ t, exec (.ldImm x kk) s = .next t ∧ Executed t ∧
      t.getV x = kk ∧ RegsKeptBut [x] s t ∧ KeptBut [.regs] s t) ∧
    (∃ t, exec (.ldReg x y) s = .next t ∧ Executed t ∧
      t.getV x = s.getV y ∧ RegsKeptBut [x] s t ∧ KeptBut [.regs] s t)

/-- 42_alu.md section 2, `7xkk` (encoding and meaning are the spec's decision D2, log 8; that `VF` is not a flag here its
decision D10, log 12): the sum wraps modulo 256 and `VF` changes only as the destination. -/
def Obligations.AddImmediateWraps : Prop :=
  ∀ (x : Reg) (kk : Byte) (s : State), ∃ t, exec (.addImm x kk) s = .next t ∧ Executed t ∧
    (t.getV x).toNat = ((s.getV x).toNat + kk.toNat) % 256 ∧ RegsKeptBut [x] s t ∧ KeptBut [.regs] s t

/-- 42_alu.md section 3, `8xy1`, `8xy2`, `8xy3` (encodings and meanings are the spec's decision D2, log 8; that `VF` is not
a flag here its decision D9, log 12): bit by bit. -/
def Obligations.LogicOperatesBitwise : Prop :=
  ∀ (x y : Reg) (s : State),
    (∃ t, exec (.orReg x y) s = .next t ∧ Executed t ∧ RegsKeptBut [x] s t ∧ KeptBut [.regs] s t ∧
      ∀ b < 8, (t.getV x).getLsbD b = ((s.getV x).getLsbD b || (s.getV y).getLsbD b)) ∧
    (∃ t, exec (.andReg x y) s = .next t ∧ Executed t ∧ RegsKeptBut [x] s t ∧ KeptBut [.regs] s t ∧
      ∀ b < 8, (t.getV x).getLsbD b = ((s.getV x).getLsbD b && (s.getV y).getLsbD b)) ∧
    (∃ t, exec (.xorReg x y) s = .next t ∧ Executed t ∧ RegsKeptBut [x] s t ∧ KeptBut [.regs] s t ∧
      ∀ b < 8, (t.getV x).getLsbD b = ((s.getV x).getLsbD b ^^ (s.getV y).getLsbD b))

/-- 42_alu.md section 4, `8xy4`: the sum modulo 256 goes to `V[x]` and then the carry to `VF`; that with `x = 0xF` the carry
is what remains is the spec's decision D7 (log 12). -/
def Obligations.AddWritesSumThenCarry : Prop :=
  ∀ (x y : Reg) (s : State), ∃ t, exec (.addReg x y) s = .next t ∧ Executed t ∧
    (x ≠ 0xF#4 → (t.getV x).toNat = ((s.getV x).toNat + (s.getV y).toNat) % 256) ∧
    (t.getV 0xF#4).toNat = (if (s.getV x).toNat + (s.getV y).toNat > 255 then 1 else 0) ∧
    RegsKeptBut [x, 0xF#4] s t ∧ KeptBut [.regs] s t

/-- 42_alu.md section 4, `8xy5`: `V[x] - V[y]` modulo 256; `VF` is 1 exactly when `V[x]` is strictly greater, so 0 at
equality (the spec's choice, 90_conflicts.md C1); the flag is written last (its decision D7, log 12). -/
def Obligations.SubtractFlagIsStrictlyGreater : Prop :=
  ∀ (x y : Reg) (s : State), ∃ t, exec (.sub x y) s = .next t ∧ Executed t ∧
    (x ≠ 0xF#4 → (t.getV x).toNat = ((s.getV x).toNat + 256 - (s.getV y).toNat) % 256) ∧
    (t.getV 0xF#4).toNat = (if (s.getV x).toNat > (s.getV y).toNat then 1 else 0) ∧
    RegsKeptBut [x, 0xF#4] s t ∧ KeptBut [.regs] s t

/-- 42_alu.md section 4, `8xy7`: `V[y] - V[x]` modulo 256 goes to `V[x]`; `VF` is 1 exactly when `V[y]` is strictly greater
(90_conflicts.md C1; the flag is written last, decision D7, log 12). -/
def Obligations.SubtractReversed : Prop :=
  ∀ (x y : Reg) (s : State), ∃ t, exec (.subn x y) s = .next t ∧ Executed t ∧
    (x ≠ 0xF#4 → (t.getV x).toNat = ((s.getV y).toNat + 256 - (s.getV x).toNat) % 256) ∧
    (t.getV 0xF#4).toNat = (if (s.getV y).toNat > (s.getV x).toNat then 1 else 0) ∧
    RegsKeptBut [x, 0xF#4] s t ∧ KeptBut [.regs] s t

/-- 42_alu.md section 5 (that the operand is `V[x]` and `y` is ignored is the spec's decision D8, that the flag is written
last its decision D7): halving and doubling `V[x]`, with the bit shifted out in `VF`. -/
def Obligations.ShiftsMoveOneBitIntoVF : Prop :=
  ∀ (x y : Reg) (s : State),
    (∃ t, exec (.shr x y) s = .next t ∧ Executed t ∧ RegsKeptBut [x, 0xF#4] s t ∧ KeptBut [.regs] s t ∧
      (x ≠ 0xF#4 → (t.getV x).toNat = (s.getV x).toNat / 2) ∧
      (t.getV 0xF#4).toNat = (s.getV x).toNat % 2) ∧
    (∃ t, exec (.shl x y) s = .next t ∧ Executed t ∧ RegsKeptBut [x, 0xF#4] s t ∧ KeptBut [.regs] s t ∧
      (x ≠ 0xF#4 → (t.getV x).toNat = (s.getV x).toNat * 2 % 256) ∧
      (t.getV 0xF#4).toNat = (s.getV x).toNat / 128)

/-- 42_alu.md R144 (the byte as a free input is the spec's decision D26, its form in the model log 4): `V[x]` gets the
drawn byte AND `kk`; the byte is the host's where the host sent one, any byte, and else the generator's, of which nothing
is known. -/
def Obligations.RandomByteIsMasked : Prop :=
  ∀ (x : Reg) (kk : Byte) (s : State), ∃ t, exec (.rnd x kk) s = .next t ∧ Executed t ∧
    (∀ b, s.rndIn = some b → t.getV x = b &&& kk) ∧
    (s.rndIn = none → t.getV x = Config.rnd s.draws &&& kk) ∧
    t.draws = s.draws + 1 ∧ RegsKeptBut [x] s t ∧ KeptBut [.regs, .draws] s t

/-! ### Index register and memory -/

/-- 43_index_memory.md section 2, `Annn` (encoding and meaning are the spec's decision D2, log 8). -/
def Obligations.LoadIndex : Prop :=
  ∀ (nnn : Addr12) (s : State), ∃ t, exec (.ldI nnn) s = .next t ∧ Executed t ∧
    t.i.toNat = nnn.toNat ∧ KeptBut [.index] s t

/-- 43_index_memory.md section 2, `Fx1E` and `Fx29` (encodings and meanings are the spec's decision D2, log 8; that `VF` is
unchanged and the width of the sum its decision D10, that only the low nibble selects the glyph D16, log 12). -/
def Obligations.AddToIndexAndPointAtGlyph : Prop :=
  ∀ (x : Reg) (s : State),
    (∃ t, exec (.addI x) s = .next t ∧ Executed t ∧
      t.i.toNat = (s.i.toNat + (s.getV x).toNat) % 65536 ∧ KeptBut [.index] s t) ∧
    (∃ t, exec (.ldF x) s = .next t ∧ Executed t ∧
      t.i.toNat = 0x50 + 5 * ((s.getV x).toNat % 16) ∧ KeptBut [.index] s t)

/-- 43_index_memory.md section 3, `Fx33`: the three decimal digits at `I`, `I+1`, `I+2` and no other byte; or, by the spec's
decisions D5 and D18, the fault when the span passes 0xFFF, with no byte written. -/
def Obligations.StoreDecimalDigits : Prop :=
  ∀ (x : Reg) (s : State),
    (s.i.toNat + 2 ≤ 0xFFF → ∃ t, exec (.ldB x) s = .next t ∧ Executed t ∧
      (t.readByte s.i.toNat).toNat = (s.getV x).toNat / 100 ∧
      (t.readByte (s.i.toNat + 1)).toNat = (s.getV x).toNat / 10 % 10 ∧
      (t.readByte (s.i.toNat + 2)).toNat = (s.getV x).toNat % 10 ∧
      MemoryKeptBut s.i.toNat 3 s t ∧ KeptBut [.memory] s t) ∧
    (s.i.toNat + 2 > 0xFFF → ∃ t, exec (.ldB x) s = .next t ∧ Faulted .addressOutOfRange (.ldB x) s t ∧
      t.mode = .halted ∧ KeptBut [.mode] s t)

/-- 43_index_memory.md section 3, `Fx55`: `V[r]` at `I + r` for every `r` up to `x`, no other byte, `I` unchanged; or, by the
spec's decisions D5 and D18, the fault when the span passes 0xFFF, with no byte written. -/
def Obligations.StoreRegisterBlock : Prop :=
  ∀ (x : Reg) (s : State),
    (s.i.toNat + x.toNat ≤ 0xFFF → ∃ t, exec (.stRegs x) s = .next t ∧ Executed t ∧
      (∀ r : Reg, r.toNat ≤ x.toNat → t.readByte (s.i.toNat + r.toNat) = s.getV r) ∧
      MemoryKeptBut s.i.toNat (x.toNat + 1) s t ∧ KeptBut [.memory] s t) ∧
    (s.i.toNat + x.toNat > 0xFFF → ∃ t, exec (.stRegs x) s = .next t ∧
      Faulted .addressOutOfRange (.stRegs x) s t ∧ t.mode = .halted ∧ KeptBut [.mode] s t)

/-- 43_index_memory.md section 3, `Fx65`: `V[r]` from `I + r` for every `r` up to `x`, the other registers, `I` and memory
unchanged; or, by the spec's decisions D5 and D18, the fault when the span passes 0xFFF, with no register written. -/
def Obligations.LoadRegisterBlock : Prop :=
  ∀ (x : Reg) (s : State),
    (s.i.toNat + x.toNat ≤ 0xFFF → ∃ t, exec (.ldRegs x) s = .next t ∧ Executed t ∧
      (∀ r : Reg, t.getV r = if r.toNat ≤ x.toNat then s.readByte (s.i.toNat + r.toNat) else s.getV r) ∧
      KeptBut [.regs] s t) ∧
    (s.i.toNat + x.toNat > 0xFFF → ∃ t, exec (.ldRegs x) s = .next t ∧
      Faulted .addressOutOfRange (.ldRegs x) s t ∧ t.mode = .halted ∧ KeptBut [.mode] s t)

/-- 43_index_memory.md R167 (derived there): whatever has happened to the registers in between, a block load after a block
store with the same `x`, `I` and memory gives `V[0..x]` back. -/
def Obligations.BlockStoreThenLoadRestores : Prop :=
  ∀ (x : Reg) (s t u : State), s.i.toNat + x.toNat ≤ 0xFFF →
    exec (.stRegs x) s = .next t → u.mem = t.mem → u.i = t.i →
    ∃ v, exec (.ldRegs x) u = .next v ∧ Executed v ∧
      ∀ r : Reg, r.toNat ≤ x.toNat → v.getV r = s.getV r ∧ v.readByte (v.i.toNat + r.toNat) = s.getV r

/-- 20_memory.md R56, R64 (decisions D1, D28): a word that a block store put at `I` is what a fetch from that address reads
next: `V[0] ++ V[1]`. -/
def Obligations.StoredCodeIsFetched : Prop :=
  ∀ (x : Reg) (s t u : State), 1 ≤ x.toNat → s.i.toNat + x.toNat ≤ 0xFFF →
    exec (.stRegs x) s = .next t → u.mem = t.mem → u.pc = s.i →
    (fetchWord u).toNat = 256 * (s.getV 0x0#4).toNat + (s.getV 0x1#4).toNat

/-! ### Display -/

/-- 44_sprite_display.md R181: every pixel false afterwards, for any framebuffer before. -/
def Obligations.ClearScreenBlanksEveryPixel : Prop :=
  ∀ (s : State), ∃ t, exec .cls s = .next t ∧ Executed t ∧
    (∀ j < 2048, pixel t.fb j = false) ∧ KeptBut [.screen] s t

/-- 44_sprite_display.md R182 to R186 (the index formula is the spec's decision D12, `n = 0` its decision D14): the pixels
a set sprite bit lands on flip and no other; `VF` is 1 exactly when one of them was set before; a span that passes 0xFFF
faults with no pixel and no register changed (decisions D5, D18), and `n = 0` never does. -/
def Obligations.DrawTogglesSpritePixels : Prop :=
  ∀ (x y : Reg) (n : Nibble) (s : State),
    (n.toNat = 0 ∨ s.i.toNat + n.toNat - 1 ≤ 0xFFF → ∃ t, exec (.drw x y n) s = .next t ∧ Executed t ∧
      (∀ j < 2048, SpriteHits s x y n j → pixel t.fb j = !pixel s.fb j) ∧
      (∀ j < 2048, ¬ SpriteHits s x y n j → pixel t.fb j = pixel s.fb j) ∧
      ((∃ j < 2048, SpriteHits s x y n j ∧ pixel s.fb j = true) → t.getV 0xF#4 = 0x01#8) ∧
      ((¬ ∃ j < 2048, SpriteHits s x y n j ∧ pixel s.fb j = true) → t.getV 0xF#4 = 0x00#8) ∧
      RegsKeptBut [0xF#4] s t ∧ KeptBut [.regs, .screen] s t) ∧
    (1 ≤ n.toNat → s.i.toNat + n.toNat - 1 > 0xFFF → ∃ t, exec (.drw x y n) s = .next t ∧
      Faulted .addressOutOfRange (.drw x y n) s t ∧ t.mode = .halted ∧ KeptBut [.mode] s t)

/-- 44_sprite_display.md section 3, R187 and (for `n = 0`, the spec's decision D14) R189: drawing the same sprite a second
time at the same coordinates restores the framebuffer; against a blank framebuffer the first draw gives `VF = 0` and the
second `VF = 1` when the sprite has a set bit and `VF = 0` when it has none. -/
def Obligations.DrawTwiceRestoresScreen : Prop :=
  ∀ (x y : Reg) (n : Nibble) (s t u : State), n.toNat = 0 ∨ s.i.toNat + n.toNat - 1 ≤ 0xFFF →
    exec (.drw x y n) s = .next t →
    u.fb = t.fb → u.mem = s.mem → u.i = s.i → u.getV x = s.getV x → u.getV y = s.getV y →
    ∃ v, exec (.drw x y n) u = .next v ∧ Executed v ∧ v.fb = s.fb ∧
      ((∀ j < 2048, pixel s.fb j = false) → t.getV 0xF#4 = 0x00#8 ∧
        ((∃ row < n.toNat, s.readByte (s.i.toNat + row) ≠ 0x00#8) → v.getV 0xF#4 = 0x01#8) ∧
        ((∀ row < n.toNat, s.readByte (s.i.toNat + row) = 0x00#8) → v.getV 0xF#4 = 0x00#8))

/-! ### Timers and keypad -/

/-- 45_timers_keypad.md R200, R201, R202, R205 (encodings and meanings are the spec's decision D2, `sound_active` its
decision D22). -/
def Obligations.TimerInstructions : Prop :=
  ∀ (x : Reg) (s : State),
    (∃ t, exec (.ldVxDt x) s = .next t ∧ Executed t ∧
      t.getV x = s.dt ∧ RegsKeptBut [x] s t ∧ KeptBut [.regs] s t) ∧
    (∃ t, exec (.ldDtVx x) s = .next t ∧ Executed t ∧ t.dt = s.getV x ∧ KeptBut [.delay] s t) ∧
    (∃ t, exec (.ldStVx x) s = .next t ∧ Executed t ∧ t.st = s.getV x ∧
      (t.soundActive = true ↔ (s.getV x).toNat ≠ 0) ∧ KeptBut [.sound] s t)

/-- 45_timers_keypad.md R206, R207 (decisions D2 and D16): the key is the low nibble of `V[x]`; one skips when it is down,
the other when it is not. -/
def Obligations.KeySkips : Prop :=
  ∀ (x : Reg) (s : State) (k : Nat) (hk : k < 16), (s.getV x).toNat % 16 = k →
    (∃ t, exec (.skp x) s = .next t ∧ Executed t ∧ KeptBut [.pc] s t ∧
      t.pc.toNat = if s.key[k] = true then (s.pc.toNat + 2) % 65536 else s.pc.toNat) ∧
    (∃ t, exec (.sknp x) s = .next t ∧ Executed t ∧ KeptBut [.pc] s t ∧
      t.pc.toNat = if s.key[k] = false then (s.pc.toNat + 2) % 65536 else s.pc.toNat)

/-- 45_timers_keypad.md R203 (decision D15): with a key down, `V[x]` gets the least such key and `PC` stays advanced; with
none, `PC` goes back to the instruction and no register changes. -/
def Obligations.KeyWaitTakesLeastKeyDown : Prop :=
  ∀ (x : Reg) (s : State),
    (∀ (k : Nat) (hk : k < 16), s.key[k] = true → (∀ (j : Nat) (hj : j < k), s.key[j] = false) →
      ∃ t, exec (.ldVxK x) s = .next t ∧ Executed t ∧ (t.getV x).toNat = k ∧
        RegsKeptBut [x] s t ∧ KeptBut [.regs] s t) ∧
    ((∀ (k : Nat) (hk : k < 16), s.key[k] = false) →
      ∃ t, exec (.ldVxK x) s = .next t ∧ Executed t ∧ t.pc = s.pc - 2#16 ∧ KeptBut [.pc] s t)

/-- 45_timers_keypad.md R203, the source's property: with no keys down, any number of steps leave `PC`, and everything
else, unchanged. -/
def Obligations.KeyWaitStaysPut : Prop :=
  ∀ (n : Nat) (x : Reg) (s : State), Ready (.ldVxK x) s → (∀ (k : Nat) (hk : k < 16), s.key[k] = false) →
    ∃ t, Host.Core.run Sys2Proof.core n s = .next t ∧ KeptBut [.inputs] s t ∧ t.key = s.key ∧
      (0 < n → Executed t)

/-- 45_timers_keypad.md R204 (that it acts in every mode is the spec's decision D21): a tick takes one from each nonzero
timer and nothing else changes. -/
def Obligations.TickDecrementsNonzeroTimers : Prop :=
  ∀ (s : State), nextEvent s = .tick →
    ∃ t, step s = .next t ∧ t.dt.toNat = s.dt.toNat - 1 ∧ t.st.toNat = s.st.toNat - 1 ∧ t.reply = .nothing ∧
      KeptBut [.delay, .sound, .inputs] s t ∧ t.key = s.key ∧ t.rndIn = s.rndIn ∧ t.loadable = s.loadable

/-- 45_timers_keypad.md section 2 (R208, derived there): after `k` ticks a timer that held `v` holds `max(0, v - k)`. That a
tick acts in every mode, so that no mode is asked for here, is the spec's decision D21 (log 12). -/
def Obligations.TicksFloorAtZero : Prop :=
  ∀ (k : Nat) (rest : List Event) (s : State), s.hostEvents = List.replicate k .tick ++ rest →
    ∃ t, Host.Core.run Sys2Proof.core k s = .next t ∧ t.dt.toNat = s.dt.toNat - k ∧ t.st.toNat = s.st.toNat - k ∧
      t.hostEvents = rest ∧ KeptBut [.delay, .sound, .inputs] s t ∧
      t.key = s.key ∧ t.rndIn = s.rndIn ∧ t.loadable = s.loadable

/-- 45_timers_keypad.md R209 (decision D24): a key event sets that flag and no other; an index above 15 is refused and has
no effect. -/
def Obligations.SetKeyWritesOneFlag : Prop :=
  ∀ (s : State) (index : Nat) (down : Bool), nextEvent s = .setKey index down →
    ∃ t, step s = .next t ∧ KeptBut [.inputs] s t ∧ t.hostEvents = s.hostEvents.tail ∧ t.loadable = s.loadable ∧
      t.rndIn = s.rndIn ∧
      (∀ (k : Nat) (hk : k < 16), t.key[k] = if k = index then down else s.key[k]) ∧
      t.reply = if index < 16 then .nothing else .refused

/-! ### The host's other events -/

/-- 70_reset_and_hazards.md R261 (decision D23): the table of the mode events; each changes `MODE` only. -/
def Obligations.ModeEventsFollowTheirTable : Prop :=
  ∀ (s : State),
    (nextEvent s = .pause → ∃ t, step s = .next t ∧ KeptBut [.mode, .inputs] s t ∧ t.key = s.key ∧
      t.mode = if s.mode = .running then .paused else s.mode) ∧
    (nextEvent s = .resume → ∃ t, step s = .next t ∧ KeptBut [.mode, .inputs] s t ∧ t.key = s.key ∧
      t.mode = if s.mode = .paused then .running else s.mode) ∧
    (nextEvent s = .halt → ∃ t, step s = .next t ∧ KeptBut [.mode, .inputs] s t ∧ t.key = s.key ∧
      t.mode = .halted)

/-- 10_state.md R44, 70_reset_and_hazards.md R250 (decisions D17, D24 and D33): `RESET` in any mode gives every piece of
the machine's state its value of the table; the font is the 80 bytes of `fontBytes` and every other byte is zero. -/
def Obligations.ResetGivesTheTableOfResetValues : Prop :=
  ∀ (s : State), nextEvent s = .reset →
    ∃ t, step s = .next t ∧ (∀ r : Reg, t.getV r = 0x00#8) ∧ t.i.toNat = 0 ∧ t.pc.toNat = 0x200 ∧ t.sp.val = 0 ∧
      (∀ (k : Nat) (h : k < 12), t.stack[k] = 0#16) ∧ t.dt.toNat = 0 ∧ t.st.toNat = 0 ∧
      (∀ j < 2048, pixel t.fb j = false) ∧ t.mode = .running ∧
      (∀ (k : Nat) (h : k < 80), some (t.readByte (0x50 + k)) = fontBytes[k]?) ∧
      (∀ a, a < 0x50 ∨ 0xA0 ≤ a → t.readByte a = 0x00#8) ∧
      (∀ (k : Nat) (h : k < 16), t.key[k] = false) ∧ t.soundActive = false ∧ t.hostEvents = s.hostEvents.tail

/-- 70_reset_and_hazards.md R252: a load that fits copies the bytes from 0x200 and changes no other byte and no register;
one that is too large changes nothing. (That the load is in its place is the premise `loadable`, log 5.) -/
def Obligations.LoadCopiesRomOrRefusesWhole : Prop :=
  ∀ (s : State) (bytes : List Byte), nextEvent s = .load bytes → s.loadable = true →
    (bytes.length ≤ 3584 → ∃ t, step s = .next t ∧ t.reply = .loadOk ∧
      (∀ (k : Nat) (h : k < bytes.length), t.readByte (0x200 + k) = bytes[k]) ∧
      MemoryKeptBut 0x200 bytes.length s t ∧ KeptBut [.memory, .inputs] s t ∧ t.key = s.key) ∧
    (bytes.length > 3584 → ∃ t, step s = .next t ∧ t.reply = .programTooLarge ∧
      KeptBut [.inputs] s t ∧ t.key = s.key ∧ t.loadable = true)

/-- 70_reset_and_hazards.md R253 (decision D25; how the model keeps the lifecycle is log 5): after any `STEP`, or after a
successful load, a load is refused and nothing changes. -/
def Obligations.LoadIsRefusedOutsideItsPlace : Prop :=
  ∀ (s : State),
    (∀ bytes, nextEvent s = .load bytes → s.loadable = false →
      ∃ t, step s = .next t ∧ t.reply = .refused ∧ KeptBut [.inputs] s t ∧ t.key = s.key ∧ t.loadable = false) ∧
    (∀ rnd t, nextEvent s = .step rnd → step s = .next t → t.loadable = false) ∧
    (∀ bytes t, nextEvent s = .load bytes → step s = .next t → t.reply = .loadOk → t.loadable = false)

/-! ### The invariant -/

/-- The invariant (memory canonical, `PC` at most 0x10FE, return addresses at most 0x1000) holds after reset. -/
def Obligations.InvariantHoldsAtReset : Prop := State.reset.Inv

/-- 10_state.md R25, R43 (derived there), 20_memory.md R50: every step, whatever event it is, keeps the invariant: memory
stays in its canonical form, so no byte above 0xFFF is ever written; `PC` stays at most 0x10FE; every stack slot stays a
return address of at most 0x1000. -/
def Obligations.EveryStepKeepsInvariant : Prop :=
  ∀ (s t : State), s.Inv → step s = .next t → t.Inv
end

