-- ==== Sys2Proof/Laws/Decode.lean ====
section
/-! SUPPORT. The fields of a packed word, and a word rebuilt from its fields: the small facts about R71 and R82 that
decoding and encoding rest on. -/

namespace Sys2Proof

open Word

/-! ### The number of a field -/

theorem Word.group_toNat (w : Word) : w.group.toNat = w.toNat / 4096 := by
  have := w.isLt
  simp only [group, BitVec.extractLsb'_toNat, Nat.shiftRight_eq_div_pow]
  omega

theorem Word.x_toNat (w : Word) : w.x.toNat = w.toNat / 256 % 16 := by
  simp [x, BitVec.extractLsb'_toNat, Nat.shiftRight_eq_div_pow]

theorem Word.y_toNat (w : Word) : w.y.toNat = w.toNat / 16 % 16 := by
  simp [y, BitVec.extractLsb'_toNat, Nat.shiftRight_eq_div_pow]

theorem Word.n_toNat (w : Word) : w.n.toNat = w.toNat % 16 := by
  simp [n, BitVec.extractLsb'_toNat]

theorem Word.kk_toNat (w : Word) : w.kk.toNat = w.toNat % 256 := by
  simp [kk, BitVec.extractLsb'_toNat]

theorem Word.nnn_toNat (w : Word) : w.nnn.toNat = w.toNat % 4096 := by
  simp [nnn, BitVec.extractLsb'_toNat]

theorem Word.ofBytes_toNat (hi lo : Byte) : (ofBytes hi lo).toNat = 256 * hi.toNat + lo.toNat := by
  have := lo.isLt
  rw [ofBytes, BitVec.toNat_append, ← Nat.shiftLeft_add_eq_or_of_lt (by simpa using this), Nat.shiftLeft_eq]
  omega

/-! ### The number of a packed word -/

theorem packXkk_toNat (g : Nibble) (x : Reg) (k : Byte) :
    (packXkk g x k).toNat = 4096 * g.toNat + 256 * x.toNat + k.toNat := by
  have hk : k.toNat < 2 ^ 8 := k.isLt
  have hx : x.toNat < 2 ^ 4 := x.isLt
  simp only [packXkk]
  rw [BitVec.toNat_append, ← Nat.shiftLeft_add_eq_or_of_lt hk, BitVec.toNat_append,
    ← Nat.shiftLeft_add_eq_or_of_lt hx, Nat.shiftLeft_eq, Nat.shiftLeft_eq]
  omega

theorem packXyn_toNat (g : Nibble) (x y : Reg) (n : Nibble) :
    (packXyn g x y n).toNat = 4096 * g.toNat + 256 * x.toNat + 16 * y.toNat + n.toNat := by
  have hn : n.toNat < 2 ^ 4 := n.isLt
  have hy : y.toNat < 2 ^ 4 := y.isLt
  have hx : x.toNat < 2 ^ 4 := x.isLt
  simp only [packXyn]
  rw [BitVec.toNat_append, ← Nat.shiftLeft_add_eq_or_of_lt hn, BitVec.toNat_append,
    ← Nat.shiftLeft_add_eq_or_of_lt hy, BitVec.toNat_append, ← Nat.shiftLeft_add_eq_or_of_lt hx,
    Nat.shiftLeft_eq, Nat.shiftLeft_eq, Nat.shiftLeft_eq]
  omega

theorem packNnn_toNat (g : Nibble) (a : Addr12) : (packNnn g a).toNat = 4096 * g.toNat + a.toNat := by
  have ha : a.toNat < 2 ^ 12 := a.isLt
  simp only [packNnn]
  rw [BitVec.toNat_append, ← Nat.shiftLeft_add_eq_or_of_lt ha, Nat.shiftLeft_eq]
  omega

/-! ### The fields of a packed word -/

section
variable (g : Nibble) (x y : Reg) (n : Nibble) (k : Byte) (a : Addr12)

@[simp] theorem packXyn_group : (packXyn g x y n).group = g := by
  apply BitVec.eq_of_toNat_eq
  have := g.isLt; have := x.isLt; have := y.isLt; have := n.isLt
  rw [group_toNat, packXyn_toNat]; omega

@[simp] theorem packXyn_x : (packXyn g x y n).x = x := by
  apply BitVec.eq_of_toNat_eq
  have := g.isLt; have := x.isLt; have := y.isLt; have := n.isLt
  rw [x_toNat, packXyn_toNat]; omega

@[simp] theorem packXyn_y : (packXyn g x y n).y = y := by
  apply BitVec.eq_of_toNat_eq
  have := g.isLt; have := x.isLt; have := y.isLt; have := n.isLt
  rw [y_toNat, packXyn_toNat]; omega

@[simp] theorem packXyn_n : (packXyn g x y n).n = n := by
  apply BitVec.eq_of_toNat_eq
  have := g.isLt; have := x.isLt; have := y.isLt; have := n.isLt
  rw [n_toNat, packXyn_toNat]; omega

@[simp] theorem packXkk_group : (packXkk g x k).group = g := by
  apply BitVec.eq_of_toNat_eq
  have := g.isLt; have := x.isLt; have := k.isLt
  rw [group_toNat, packXkk_toNat]; omega

@[simp] theorem packXkk_x : (packXkk g x k).x = x := by
  apply BitVec.eq_of_toNat_eq
  have := g.isLt; have := x.isLt; have := k.isLt
  rw [x_toNat, packXkk_toNat]; omega

@[simp] theorem packXkk_kk : (packXkk g x k).kk = k := by
  apply BitVec.eq_of_toNat_eq
  have := g.isLt; have := x.isLt; have := k.isLt
  rw [kk_toNat, packXkk_toNat]; omega

@[simp] theorem packNnn_group : (packNnn g a).group = g := by
  apply BitVec.eq_of_toNat_eq
  have := g.isLt; have := a.isLt
  rw [group_toNat, packNnn_toNat]; omega

@[simp] theorem packNnn_nnn : (packNnn g a).nnn = a := by
  apply BitVec.eq_of_toNat_eq
  have := g.isLt; have := a.isLt
  rw [nnn_toNat, packNnn_toNat]; omega

end

/-! ### A word rebuilt from its fields -/

theorem packXyn_fields (w : Word) : packXyn w.group w.x w.y w.n = w := by
  apply BitVec.eq_of_toNat_eq
  have := w.isLt
  rw [packXyn_toNat, group_toNat, x_toNat, y_toNat, n_toNat]; omega

theorem packXkk_fields (w : Word) : packXkk w.group w.x w.kk = w := by
  apply BitVec.eq_of_toNat_eq
  have := w.isLt
  rw [packXkk_toNat, group_toNat, x_toNat, kk_toNat]; omega

theorem packNnn_fields (w : Word) : packNnn w.group w.nnn = w := by
  apply BitVec.eq_of_toNat_eq
  have := w.isLt
  rw [packNnn_toNat, group_toNat, nnn_toNat]; omega

/-- The two bytes of a word, put together again. -/
theorem ofBytes_toBytes (w : Word) : ofBytes (w.extractLsb' 8 8) (w.extractLsb' 0 8) = w := by
  apply BitVec.eq_of_toNat_eq
  have := w.isLt
  rw [ofBytes_toNat]
  simp only [BitVec.extractLsb'_toNat, Nat.shiftRight_eq_div_pow]
  omega

/-- Decoding the bytes of a word is decoding the word, and what follows is handed back. -/
theorem decode_toBytes (w : Word) (rest : List Byte) :
    decode (w.toBytes ++ rest) = (decodeWord w).map (fun i => (i, rest)) := by
  simp [toBytes, decode, ofBytes_toBytes]

end Sys2Proof
end

