-- ==== Sys2Proof/Laws/Memory.lean ====
section
/-! SUPPORT. The laws of memory: a read after a write, spans, and that every operation keeps the canonical form. The
read laws hold of every list, canonical or not. -/

namespace Sys2Proof.Machine.Memory

theorem read_nil (a : Nat) : read [] a = background a := rfl

theorem read_erase (m : Memory) (a k : Nat) :
    read (erase m a) k = if k = a then background k else read m k := by
  induction m with
  | nil => simp [erase, read]
  | cons c m ih =>
    have step : erase (c :: m) a = if c.1 = a then erase m a else c :: erase m a := by
      by_cases h : c.1 = a <;> simp [erase, h]
    rw [step]
    by_cases hc : c.1 = a
    · rw [if_pos hc, ih]
      by_cases hk : k = a
      · simp [hk]
      · have : c.1 ≠ k := fun h => hk (h.symm.trans hc)
        simp [hk, read, this]
    · rw [if_neg hc]
      by_cases hk : c.1 = k
      · have : k ≠ a := fun h => hc (hk.trans h)
        simp [read, hk, this]
      · simp [read, hk, ih]

theorem read_insert (m : Memory) (a k : Nat) (b : Byte) (h : ∀ c ∈ m, c.1 ≠ a) :
    read (insert m a b) k = if k = a then b else read m k := by
  induction m with
  | nil => simp [insert, read, eq_comm]
  | cons c m ih =>
    have hc : c.1 ≠ a := h c (by simp)
    have ih := ih (fun d hd => h d (by simp [hd]))
    unfold insert
    split
    · by_cases hk : k = a
      · simp [read, hk]
      · simp [read, hk, Ne.symm hk]
    · by_cases hk : c.1 = k
      · have : k ≠ a := fun e => hc (hk.trans e)
        simp [read, hk, this]
      · simp [read, hk, ih]

theorem mem_erase {m : Memory} {a : Nat} {c : Host.Cell} : c ∈ erase m a ↔ c ∈ m ∧ c.1 ≠ a := by
  simp [erase]

/-- A read after a write: the byte written at its address, and every other address as before. -/
theorem read_write (m : Memory) (a k : Nat) (b : Byte) :
    read (write m a b) k = if k = a then b else read m k := by
  unfold write
  split
  · rename_i hb
    rw [read_erase]
    by_cases hk : k = a <;> simp [hk, hb]
  · rw [read_insert _ _ _ _ (fun c hc => (mem_erase.mp hc).2), read_erase]
    by_cases hk : k = a <;> simp [hk]

/-- A read after a span has been written: the span's byte inside it, and every other address as before. -/
theorem read_writeSpan (m : Memory) (a k : Nat) (bs : List Byte) :
    read (writeSpan m a bs) k =
      if h : a ≤ k ∧ k < a + bs.length then bs[k - a]'(by omega) else read m k := by
  induction bs generalizing m a with
  | nil =>
    have : ¬ (a ≤ k ∧ k < a + ([] : List Byte).length) := by simp only [List.length_nil]; omega
    rw [dif_neg this]; rfl
  | cons b bs ih =>
    rw [writeSpan, ih, read_write]
    rcases Nat.lt_trichotomy k a with hk | hk | hk
    · rw [dif_neg (by omega), dif_neg (by omega), if_neg (by omega)]
    · subst hk
      rw [dif_neg (by omega), if_pos rfl, dif_pos (by simp)]
      simp
    · by_cases hin : k < a + 1 + bs.length
      · rw [dif_pos (by omega), dif_pos (by simp only [List.length_cons]; omega)]
        have : k - a = (k - (a + 1)) + 1 := by omega
        simp [this]
      · rw [dif_neg (by omega), dif_neg (by simp only [List.length_cons]; omega), if_neg (by omega)]

theorem read_writeSpan_outside {m : Memory} {a k : Nat} {bs : List Byte} (h : ¬ (a ≤ k ∧ k < a + bs.length)) :
    read (writeSpan m a bs) k = read m k := by
  rw [read_writeSpan, dif_neg h]

@[simp] theorem length_readSpan (m : Memory) (a n : Nat) : (readSpan m a n).length = n := by
  induction n generalizing a with
  | zero => rfl
  | succ n ih => simp [readSpan, ih]

theorem getElem_readSpan (m : Memory) (a n k : Nat) (h : k < (readSpan m a n).length) :
    (readSpan m a n)[k] = read m (a + k) := by
  induction n generalizing a k with
  | zero => simp [readSpan] at h
  | succ n ih =>
    cases k with
    | zero => simp [readSpan]
    | succ k =>
      simp only [readSpan, List.getElem_cons_succ]
      rw [ih, show a + 1 + k = a + (k + 1) by omega]

/-! ### The canonical form -/

theorem wf_nil : wf [] := ⟨List.Pairwise.nil, by simp⟩

theorem wf_erase {m : Memory} (h : wf m) (a : Nat) : wf (erase m a) :=
  ⟨h.1.filter _, fun c hc => h.2 c (mem_erase.mp hc).1⟩

theorem mem_insert {m : Memory} {a : Nat} {b : Byte} {c : Host.Cell} :
    c ∈ insert m a b ↔ c = (a, b) ∨ c ∈ m := by
  induction m with
  | nil => simp [insert]
  | cons d m ih =>
    unfold insert
    split
    · simp
    · simp only [List.mem_cons, ih]; tauto

theorem pairwise_insert {m : Memory} {a : Nat} {b : Byte} (h : m.Pairwise (fun c d => c.1 < d.1))
    (ha : ∀ c ∈ m, c.1 ≠ a) : (insert m a b).Pairwise (fun c d => c.1 < d.1) := by
  induction m with
  | nil => simp [insert]
  | cons d m ih =>
    have hd := List.pairwise_cons.mp h
    unfold insert
    split
    · rename_i hlt
      refine List.pairwise_cons.mpr ⟨fun c hc => ?_, h⟩
      rcases List.mem_cons.mp hc with rfl | hc
      · exact hlt
      · exact Nat.lt_trans hlt (hd.1 c hc)
    · rename_i hge
      refine List.pairwise_cons.mpr ⟨fun c hc => ?_, ih hd.2 (fun c hc => ha c (by simp [hc]))⟩
      rcases mem_insert.mp hc with rfl | hc
      · have := ha d (by simp)
        exact Nat.lt_of_le_of_ne (Nat.not_lt.mp hge) this
      · exact hd.1 c hc

/-- A write inside memory keeps the canonical form. -/
theorem wf_write {m : Memory} (h : wf m) {a : Nat} (b : Byte) (ha : a < Config.memSize) : wf (write m a b) := by
  unfold write
  split
  · exact wf_erase h a
  · rename_i hb
    refine ⟨pairwise_insert (wf_erase h a).1 (fun c hc => (mem_erase.mp hc).2), fun c hc => ?_⟩
    rcases mem_insert.mp hc with rfl | hc
    · exact ⟨ha, hb⟩
    · exact (wf_erase h a).2 c hc

/-- Writing a span that lies inside memory keeps the canonical form. -/
theorem wf_writeSpan {m : Memory} (h : wf m) {a : Nat} (bs : List Byte) (ha : a + bs.length ≤ Config.memSize) :
    wf (writeSpan m a bs) := by
  induction bs generalizing m a with
  | nil => exact h
  | cons b bs ih =>
    simp only [List.length_cons] at ha
    exact ih (wf_write h b (by omega)) (by omega)

theorem read_eq_background {m : Memory} {a : Nat} (h : ∀ c ∈ m, c.1 ≠ a) : read m a = background a := by
  induction m with
  | nil => rfl
  | cons d m ih => rw [read, if_neg (h d (by simp)), ih (fun c hc => h c (by simp [hc]))]

/-- Two canonical memories that read alike are the same list. -/
theorem eq_of_read_eq {m m' : Memory} (h : wf m) (h' : wf m') (he : ∀ a, read m a = read m' a) : m = m' := by
  induction m generalizing m' with
  | nil =>
    cases m' with
    | nil => rfl
    | cons d m' =>
      have := he d.1
      rw [read_nil, read, if_pos rfl] at this
      exact absurd this.symm (h'.2 d (by simp)).2
  | cons c m ih =>
    have hc := List.pairwise_cons.mp h.1
    cases m' with
    | nil =>
      have := he c.1
      rw [read_nil, read, if_pos rfl] at this
      exact absurd this (h.2 c (by simp)).2
    | cons d m' =>
      have hd := List.pairwise_cons.mp h'.1
      have hk : c.1 = d.1 := by
        rcases Nat.lt_trichotomy c.1 d.1 with hlt | heq | hlt
        · have e := he c.1
          rw [read, if_pos rfl, read_eq_background (m := d :: m')] at e
          · exact absurd e (h.2 c (by simp)).2
          · intro x hx
            rcases List.mem_cons.mp hx with rfl | hx
            · omega
            · have := hd.1 x hx; omega
        · exact heq
        · have e := he d.1
          rw [read_eq_background (m := c :: m), read, if_pos rfl] at e
          · exact absurd e.symm (h'.2 d (by simp)).2
          · intro x hx
            rcases List.mem_cons.mp hx with rfl | hx
            · omega
            · have := hc.1 x hx; omega
      have hv : c.2 = d.2 := by
        have e := he c.1
        rwa [read, if_pos rfl, read, if_pos hk.symm] at e
      have : c = d := Prod.ext hk hv
      subst this
      congr 1
      refine ih ⟨hc.2, fun x hx => h.2 x (by simp [hx])⟩ ⟨hd.2, fun x hx => h'.2 x (by simp [hx])⟩ (fun a => ?_)
      by_cases ha : c.1 = a
      · rw [read_eq_background (m := m), read_eq_background (m := m')]
        · intro x hx; have := hd.1 x hx; omega
        · intro x hx; have := hc.1 x hx; omega
      · have e := he a
        rwa [read, if_neg ha, read, if_neg ha] at e

end Sys2Proof.Machine.Memory
end

