-- ==== Sys2Proof/Laws/State.lean ====
section
/-! SUPPORT. One lemma per field per update of the state, so that no proof unfolds a record update. -/

namespace Sys2Proof.Machine.State

variable (s : State)

@[simp] theorem setV_v (x : Reg) (b : Byte) : (s.setV x b).v = s.v.set x.toNat b x.isLt := rfl
@[simp] theorem setV_i (x : Reg) (b : Byte) : (s.setV x b).i = s.i := rfl
@[simp] theorem setV_pc (x : Reg) (b : Byte) : (s.setV x b).pc = s.pc := rfl
@[simp] theorem setV_stack (x : Reg) (b : Byte) : (s.setV x b).stack = s.stack := rfl
@[simp] theorem setV_sp (x : Reg) (b : Byte) : (s.setV x b).sp = s.sp := rfl
@[simp] theorem setV_dt (x : Reg) (b : Byte) : (s.setV x b).dt = s.dt := rfl
@[simp] theorem setV_st (x : Reg) (b : Byte) : (s.setV x b).st = s.st := rfl
@[simp] theorem setV_fb (x : Reg) (b : Byte) : (s.setV x b).fb = s.fb := rfl
@[simp] theorem setV_mode (x : Reg) (b : Byte) : (s.setV x b).mode = s.mode := rfl
@[simp] theorem setV_mem (x : Reg) (b : Byte) : (s.setV x b).mem = s.mem := rfl
@[simp] theorem setV_key (x : Reg) (b : Byte) : (s.setV x b).key = s.key := rfl
@[simp] theorem setV_reply (x : Reg) (b : Byte) : (s.setV x b).reply = s.reply := rfl
@[simp] theorem setV_rndIn (x : Reg) (b : Byte) : (s.setV x b).rndIn = s.rndIn := rfl
@[simp] theorem setV_draws (x : Reg) (b : Byte) : (s.setV x b).draws = s.draws := rfl
@[simp] theorem setV_loadable (x : Reg) (b : Byte) : (s.setV x b).loadable = s.loadable := rfl
@[simp] theorem setV_hostEvents (x : Reg) (b : Byte) : (s.setV x b).hostEvents = s.hostEvents := rfl

@[simp] theorem setI_v (w : Word) : (s.setI w).v = s.v := rfl
@[simp] theorem setI_i (w : Word) : (s.setI w).i = w := rfl
@[simp] theorem setI_pc (w : Word) : (s.setI w).pc = s.pc := rfl
@[simp] theorem setI_stack (w : Word) : (s.setI w).stack = s.stack := rfl
@[simp] theorem setI_sp (w : Word) : (s.setI w).sp = s.sp := rfl
@[simp] theorem setI_dt (w : Word) : (s.setI w).dt = s.dt := rfl
@[simp] theorem setI_st (w : Word) : (s.setI w).st = s.st := rfl
@[simp] theorem setI_fb (w : Word) : (s.setI w).fb = s.fb := rfl
@[simp] theorem setI_mode (w : Word) : (s.setI w).mode = s.mode := rfl
@[simp] theorem setI_mem (w : Word) : (s.setI w).mem = s.mem := rfl
@[simp] theorem setI_key (w : Word) : (s.setI w).key = s.key := rfl
@[simp] theorem setI_reply (w : Word) : (s.setI w).reply = s.reply := rfl
@[simp] theorem setI_rndIn (w : Word) : (s.setI w).rndIn = s.rndIn := rfl
@[simp] theorem setI_draws (w : Word) : (s.setI w).draws = s.draws := rfl
@[simp] theorem setI_loadable (w : Word) : (s.setI w).loadable = s.loadable := rfl
@[simp] theorem setI_hostEvents (w : Word) : (s.setI w).hostEvents = s.hostEvents := rfl

@[simp] theorem setPc_v (w : Word) : (s.setPc w).v = s.v := rfl
@[simp] theorem setPc_i (w : Word) : (s.setPc w).i = s.i := rfl
@[simp] theorem setPc_pc (w : Word) : (s.setPc w).pc = w := rfl
@[simp] theorem setPc_stack (w : Word) : (s.setPc w).stack = s.stack := rfl
@[simp] theorem setPc_sp (w : Word) : (s.setPc w).sp = s.sp := rfl
@[simp] theorem setPc_dt (w : Word) : (s.setPc w).dt = s.dt := rfl
@[simp] theorem setPc_st (w : Word) : (s.setPc w).st = s.st := rfl
@[simp] theorem setPc_fb (w : Word) : (s.setPc w).fb = s.fb := rfl
@[simp] theorem setPc_mode (w : Word) : (s.setPc w).mode = s.mode := rfl
@[simp] theorem setPc_mem (w : Word) : (s.setPc w).mem = s.mem := rfl
@[simp] theorem setPc_key (w : Word) : (s.setPc w).key = s.key := rfl
@[simp] theorem setPc_reply (w : Word) : (s.setPc w).reply = s.reply := rfl
@[simp] theorem setPc_rndIn (w : Word) : (s.setPc w).rndIn = s.rndIn := rfl
@[simp] theorem setPc_draws (w : Word) : (s.setPc w).draws = s.draws := rfl
@[simp] theorem setPc_loadable (w : Word) : (s.setPc w).loadable = s.loadable := rfl
@[simp] theorem setPc_hostEvents (w : Word) : (s.setPc w).hostEvents = s.hostEvents := rfl

@[simp] theorem setDt_v (b : Byte) : (s.setDt b).v = s.v := rfl
@[simp] theorem setDt_i (b : Byte) : (s.setDt b).i = s.i := rfl
@[simp] theorem setDt_pc (b : Byte) : (s.setDt b).pc = s.pc := rfl
@[simp] theorem setDt_stack (b : Byte) : (s.setDt b).stack = s.stack := rfl
@[simp] theorem setDt_sp (b : Byte) : (s.setDt b).sp = s.sp := rfl
@[simp] theorem setDt_dt (b : Byte) : (s.setDt b).dt = b := rfl
@[simp] theorem setDt_st (b : Byte) : (s.setDt b).st = s.st := rfl
@[simp] theorem setDt_fb (b : Byte) : (s.setDt b).fb = s.fb := rfl
@[simp] theorem setDt_mode (b : Byte) : (s.setDt b).mode = s.mode := rfl
@[simp] theorem setDt_mem (b : Byte) : (s.setDt b).mem = s.mem := rfl
@[simp] theorem setDt_key (b : Byte) : (s.setDt b).key = s.key := rfl
@[simp] theorem setDt_reply (b : Byte) : (s.setDt b).reply = s.reply := rfl
@[simp] theorem setDt_rndIn (b : Byte) : (s.setDt b).rndIn = s.rndIn := rfl
@[simp] theorem setDt_draws (b : Byte) : (s.setDt b).draws = s.draws := rfl
@[simp] theorem setDt_loadable (b : Byte) : (s.setDt b).loadable = s.loadable := rfl
@[simp] theorem setDt_hostEvents (b : Byte) : (s.setDt b).hostEvents = s.hostEvents := rfl

@[simp] theorem setSt_v (b : Byte) : (s.setSt b).v = s.v := rfl
@[simp] theorem setSt_i (b : Byte) : (s.setSt b).i = s.i := rfl
@[simp] theorem setSt_pc (b : Byte) : (s.setSt b).pc = s.pc := rfl
@[simp] theorem setSt_stack (b : Byte) : (s.setSt b).stack = s.stack := rfl
@[simp] theorem setSt_sp (b : Byte) : (s.setSt b).sp = s.sp := rfl
@[simp] theorem setSt_dt (b : Byte) : (s.setSt b).dt = s.dt := rfl
@[simp] theorem setSt_st (b : Byte) : (s.setSt b).st = b := rfl
@[simp] theorem setSt_fb (b : Byte) : (s.setSt b).fb = s.fb := rfl
@[simp] theorem setSt_mode (b : Byte) : (s.setSt b).mode = s.mode := rfl
@[simp] theorem setSt_mem (b : Byte) : (s.setSt b).mem = s.mem := rfl
@[simp] theorem setSt_key (b : Byte) : (s.setSt b).key = s.key := rfl
@[simp] theorem setSt_reply (b : Byte) : (s.setSt b).reply = s.reply := rfl
@[simp] theorem setSt_rndIn (b : Byte) : (s.setSt b).rndIn = s.rndIn := rfl
@[simp] theorem setSt_draws (b : Byte) : (s.setSt b).draws = s.draws := rfl
@[simp] theorem setSt_loadable (b : Byte) : (s.setSt b).loadable = s.loadable := rfl
@[simp] theorem setSt_hostEvents (b : Byte) : (s.setSt b).hostEvents = s.hostEvents := rfl

@[simp] theorem setFb_v (f : Screen) : (s.setFb f).v = s.v := rfl
@[simp] theorem setFb_i (f : Screen) : (s.setFb f).i = s.i := rfl
@[simp] theorem setFb_pc (f : Screen) : (s.setFb f).pc = s.pc := rfl
@[simp] theorem setFb_stack (f : Screen) : (s.setFb f).stack = s.stack := rfl
@[simp] theorem setFb_sp (f : Screen) : (s.setFb f).sp = s.sp := rfl
@[simp] theorem setFb_dt (f : Screen) : (s.setFb f).dt = s.dt := rfl
@[simp] theorem setFb_st (f : Screen) : (s.setFb f).st = s.st := rfl
@[simp] theorem setFb_fb (f : Screen) : (s.setFb f).fb = f := rfl
@[simp] theorem setFb_mode (f : Screen) : (s.setFb f).mode = s.mode := rfl
@[simp] theorem setFb_mem (f : Screen) : (s.setFb f).mem = s.mem := rfl
@[simp] theorem setFb_key (f : Screen) : (s.setFb f).key = s.key := rfl
@[simp] theorem setFb_reply (f : Screen) : (s.setFb f).reply = s.reply := rfl
@[simp] theorem setFb_rndIn (f : Screen) : (s.setFb f).rndIn = s.rndIn := rfl
@[simp] theorem setFb_draws (f : Screen) : (s.setFb f).draws = s.draws := rfl
@[simp] theorem setFb_loadable (f : Screen) : (s.setFb f).loadable = s.loadable := rfl
@[simp] theorem setFb_hostEvents (f : Screen) : (s.setFb f).hostEvents = s.hostEvents := rfl

@[simp] theorem setMode_v (m : Mode) : (s.setMode m).v = s.v := rfl
@[simp] theorem setMode_i (m : Mode) : (s.setMode m).i = s.i := rfl
@[simp] theorem setMode_pc (m : Mode) : (s.setMode m).pc = s.pc := rfl
@[simp] theorem setMode_stack (m : Mode) : (s.setMode m).stack = s.stack := rfl
@[simp] theorem setMode_sp (m : Mode) : (s.setMode m).sp = s.sp := rfl
@[simp] theorem setMode_dt (m : Mode) : (s.setMode m).dt = s.dt := rfl
@[simp] theorem setMode_st (m : Mode) : (s.setMode m).st = s.st := rfl
@[simp] theorem setMode_fb (m : Mode) : (s.setMode m).fb = s.fb := rfl
@[simp] theorem setMode_mode (m : Mode) : (s.setMode m).mode = m := rfl
@[simp] theorem setMode_mem (m : Mode) : (s.setMode m).mem = s.mem := rfl
@[simp] theorem setMode_key (m : Mode) : (s.setMode m).key = s.key := rfl
@[simp] theorem setMode_reply (m : Mode) : (s.setMode m).reply = s.reply := rfl
@[simp] theorem setMode_rndIn (m : Mode) : (s.setMode m).rndIn = s.rndIn := rfl
@[simp] theorem setMode_draws (m : Mode) : (s.setMode m).draws = s.draws := rfl
@[simp] theorem setMode_loadable (m : Mode) : (s.setMode m).loadable = s.loadable := rfl
@[simp] theorem setMode_hostEvents (m : Mode) : (s.setMode m).hostEvents = s.hostEvents := rfl

@[simp] theorem setMem_v (m : Memory) : (s.setMem m).v = s.v := rfl
@[simp] theorem setMem_i (m : Memory) : (s.setMem m).i = s.i := rfl
@[simp] theorem setMem_pc (m : Memory) : (s.setMem m).pc = s.pc := rfl
@[simp] theorem setMem_stack (m : Memory) : (s.setMem m).stack = s.stack := rfl
@[simp] theorem setMem_sp (m : Memory) : (s.setMem m).sp = s.sp := rfl
@[simp] theorem setMem_dt (m : Memory) : (s.setMem m).dt = s.dt := rfl
@[simp] theorem setMem_st (m : Memory) : (s.setMem m).st = s.st := rfl
@[simp] theorem setMem_fb (m : Memory) : (s.setMem m).fb = s.fb := rfl
@[simp] theorem setMem_mode (m : Memory) : (s.setMem m).mode = s.mode := rfl
@[simp] theorem setMem_mem (m : Memory) : (s.setMem m).mem = m := rfl
@[simp] theorem setMem_key (m : Memory) : (s.setMem m).key = s.key := rfl
@[simp] theorem setMem_reply (m : Memory) : (s.setMem m).reply = s.reply := rfl
@[simp] theorem setMem_rndIn (m : Memory) : (s.setMem m).rndIn = s.rndIn := rfl
@[simp] theorem setMem_draws (m : Memory) : (s.setMem m).draws = s.draws := rfl
@[simp] theorem setMem_loadable (m : Memory) : (s.setMem m).loadable = s.loadable := rfl
@[simp] theorem setMem_hostEvents (m : Memory) : (s.setMem m).hostEvents = s.hostEvents := rfl

@[simp] theorem setReply_v (r : Reply) : (s.setReply r).v = s.v := rfl
@[simp] theorem setReply_i (r : Reply) : (s.setReply r).i = s.i := rfl
@[simp] theorem setReply_pc (r : Reply) : (s.setReply r).pc = s.pc := rfl
@[simp] theorem setReply_stack (r : Reply) : (s.setReply r).stack = s.stack := rfl
@[simp] theorem setReply_sp (r : Reply) : (s.setReply r).sp = s.sp := rfl
@[simp] theorem setReply_dt (r : Reply) : (s.setReply r).dt = s.dt := rfl
@[simp] theorem setReply_st (r : Reply) : (s.setReply r).st = s.st := rfl
@[simp] theorem setReply_fb (r : Reply) : (s.setReply r).fb = s.fb := rfl
@[simp] theorem setReply_mode (r : Reply) : (s.setReply r).mode = s.mode := rfl
@[simp] theorem setReply_mem (r : Reply) : (s.setReply r).mem = s.mem := rfl
@[simp] theorem setReply_key (r : Reply) : (s.setReply r).key = s.key := rfl
@[simp] theorem setReply_reply (r : Reply) : (s.setReply r).reply = r := rfl
@[simp] theorem setReply_rndIn (r : Reply) : (s.setReply r).rndIn = s.rndIn := rfl
@[simp] theorem setReply_draws (r : Reply) : (s.setReply r).draws = s.draws := rfl
@[simp] theorem setReply_loadable (r : Reply) : (s.setReply r).loadable = s.loadable := rfl
@[simp] theorem setReply_hostEvents (r : Reply) : (s.setReply r).hostEvents = s.hostEvents := rfl

@[simp] theorem setRegs_v (v : Vector Byte 16) : (s.setRegs v).v = v := rfl
@[simp] theorem setRegs_i (v : Vector Byte 16) : (s.setRegs v).i = s.i := rfl
@[simp] theorem setRegs_pc (v : Vector Byte 16) : (s.setRegs v).pc = s.pc := rfl
@[simp] theorem setRegs_stack (v : Vector Byte 16) : (s.setRegs v).stack = s.stack := rfl
@[simp] theorem setRegs_sp (v : Vector Byte 16) : (s.setRegs v).sp = s.sp := rfl
@[simp] theorem setRegs_dt (v : Vector Byte 16) : (s.setRegs v).dt = s.dt := rfl
@[simp] theorem setRegs_st (v : Vector Byte 16) : (s.setRegs v).st = s.st := rfl
@[simp] theorem setRegs_fb (v : Vector Byte 16) : (s.setRegs v).fb = s.fb := rfl
@[simp] theorem setRegs_mode (v : Vector Byte 16) : (s.setRegs v).mode = s.mode := rfl
@[simp] theorem setRegs_mem (v : Vector Byte 16) : (s.setRegs v).mem = s.mem := rfl
@[simp] theorem setRegs_key (v : Vector Byte 16) : (s.setRegs v).key = s.key := rfl
@[simp] theorem setRegs_reply (v : Vector Byte 16) : (s.setRegs v).reply = s.reply := rfl
@[simp] theorem setRegs_rndIn (v : Vector Byte 16) : (s.setRegs v).rndIn = s.rndIn := rfl
@[simp] theorem setRegs_draws (v : Vector Byte 16) : (s.setRegs v).draws = s.draws := rfl
@[simp] theorem setRegs_loadable (v : Vector Byte 16) : (s.setRegs v).loadable = s.loadable := rfl
@[simp] theorem setRegs_hostEvents (v : Vector Byte 16) : (s.setRegs v).hostEvents = s.hostEvents := rfl

@[simp] theorem countDraw_v : (s.countDraw).v = s.v := rfl
@[simp] theorem countDraw_i : (s.countDraw).i = s.i := rfl
@[simp] theorem countDraw_pc : (s.countDraw).pc = s.pc := rfl
@[simp] theorem countDraw_stack : (s.countDraw).stack = s.stack := rfl
@[simp] theorem countDraw_sp : (s.countDraw).sp = s.sp := rfl
@[simp] theorem countDraw_dt : (s.countDraw).dt = s.dt := rfl
@[simp] theorem countDraw_st : (s.countDraw).st = s.st := rfl
@[simp] theorem countDraw_fb : (s.countDraw).fb = s.fb := rfl
@[simp] theorem countDraw_mode : (s.countDraw).mode = s.mode := rfl
@[simp] theorem countDraw_mem : (s.countDraw).mem = s.mem := rfl
@[simp] theorem countDraw_key : (s.countDraw).key = s.key := rfl
@[simp] theorem countDraw_reply : (s.countDraw).reply = s.reply := rfl
@[simp] theorem countDraw_rndIn : (s.countDraw).rndIn = s.rndIn := rfl
@[simp] theorem countDraw_draws : (s.countDraw).draws = s.draws + 1 := rfl
@[simp] theorem countDraw_loadable : (s.countDraw).loadable = s.loadable := rfl
@[simp] theorem countDraw_hostEvents : (s.countDraw).hostEvents = s.hostEvents := rfl

/-! ### Reading a register or a byte of memory after an update -/

@[simp] theorem setV_readByte (x : Reg) (b : Byte) (a : Nat) : (s.setV x b).readByte a = s.readByte a := rfl
@[simp] theorem setI_getV (w : Word) (r : Reg) : (s.setI w).getV r = s.getV r := rfl
@[simp] theorem setI_readByte (w : Word) (a : Nat) : (s.setI w).readByte a = s.readByte a := rfl
@[simp] theorem setPc_getV (w : Word) (r : Reg) : (s.setPc w).getV r = s.getV r := rfl
@[simp] theorem setPc_readByte (w : Word) (a : Nat) : (s.setPc w).readByte a = s.readByte a := rfl
@[simp] theorem setDt_getV (b : Byte) (r : Reg) : (s.setDt b).getV r = s.getV r := rfl
@[simp] theorem setDt_readByte (b : Byte) (a : Nat) : (s.setDt b).readByte a = s.readByte a := rfl
@[simp] theorem setSt_getV (b : Byte) (r : Reg) : (s.setSt b).getV r = s.getV r := rfl
@[simp] theorem setSt_readByte (b : Byte) (a : Nat) : (s.setSt b).readByte a = s.readByte a := rfl
@[simp] theorem setFb_getV (f : Screen) (r : Reg) : (s.setFb f).getV r = s.getV r := rfl
@[simp] theorem setFb_readByte (f : Screen) (a : Nat) : (s.setFb f).readByte a = s.readByte a := rfl
@[simp] theorem setMode_getV (m : Mode) (r : Reg) : (s.setMode m).getV r = s.getV r := rfl
@[simp] theorem setMode_readByte (m : Mode) (a : Nat) : (s.setMode m).readByte a = s.readByte a := rfl
@[simp] theorem setMem_getV (m : Memory) (r : Reg) : (s.setMem m).getV r = s.getV r := rfl
@[simp] theorem setReply_getV (p : Reply) (r : Reg) : (s.setReply p).getV r = s.getV r := rfl
@[simp] theorem setReply_readByte (r : Reply) (a : Nat) : (s.setReply r).readByte a = s.readByte a := rfl
@[simp] theorem setRegs_readByte (v : Vector Byte 16) (a : Nat) : (s.setRegs v).readByte a = s.readByte a := rfl
@[simp] theorem countDraw_getV (r : Reg) : (s.countDraw).getV r = s.getV r := rfl
@[simp] theorem countDraw_readByte (a : Nat) : (s.countDraw).readByte a = s.readByte a := rfl

theorem setV_getV (x r : Reg) (b : Byte) : (s.setV x b).getV r = if r = x then b else s.getV r := by
  simp only [getV, setV_v, Vector.getElem_set, BitVec.toNat_inj, eq_comm (a := x)]

@[simp] theorem setV_getV_same (x : Reg) (b : Byte) : (s.setV x b).getV x = b := by simp [setV_getV]

theorem setV_getV_other {x r : Reg} (b : Byte) (h : r ≠ x) : (s.setV x b).getV r = s.getV r := by simp [setV_getV, h]

@[simp] theorem setRegs_getV (v : Vector Byte 16) (r : Reg) : (s.setRegs v).getV r = v[r.toNat]'r.isLt := rfl

@[simp] theorem setMem_readByte (m : Memory) (a : Nat) : (s.setMem m).readByte a = Memory.read m a := rfl

end Sys2Proof.Machine.State
end

