-- ==== Sys2Proof/Laws/Ops.lean ====
section
/-! SUPPORT. What each shared operation does, said once: how an instruction ends, the commands to `PC` and to the stack,
the ALU's writes, spans, the block load, pixels and drawing, the keypad scan. -/

namespace Sys2Proof.Machine

/-! ### How an instruction ends -/

theorem retire_eq (s : State) : retire s = .next (s.setReply (.cycle .executed)) := rfl

theorem raiseFault_eq (c : Fault) (i : Instr) (s : State) :
    raiseFault c i s =
      .next ((s.setMode .halted).setReply (.cycle (.fault c (s.pc - 2#16) (some (encode i))))) := rfl

theorem retire_next_iff {s t : State} : retire s = .next t ↔ t = s.setReply (.cycle .executed) := by
  simp [retire, eq_comm]

theorem raiseFault_next_iff {c : Fault} {i : Instr} {s t : State} :
    raiseFault c i s = .next t ↔
      t = (s.setMode .halted).setReply (.cycle (.fault c (s.pc - 2#16) (some (encode i)))) := by
  simp [raiseFault, eq_comm]

/-! ### Register reads -/

theorem State.getV_eq_iff {s t : State} : (∀ r, t.getV r = s.getV r) ↔ t.v = s.v := by
  constructor
  · intro h
    apply Vector.ext
    intro k hk
    have := h (BitVec.ofNat 4 k)
    simpa [State.getV, Nat.mod_eq_of_lt hk] using this
  · intro h r
    simp [State.getV, h]

/-! ### `PC` -/

@[simp] theorem skipIf_true (s : State) : s.skipIf true = s.setPc (s.pc + 2#16) := rfl

@[simp] theorem skipIf_false (s : State) : s.skipIf false = s := rfl

theorem skipIf_eq (s : State) (c : Bool) : s.skipIf c = s.setPc (if c then s.pc + 2#16 else s.pc) := by
  cases c <;> rfl

/-! ### The stack -/

/-- A push stores above the live entries and counts up, or the stack is full. -/
theorem push_cases (s : State) (w : Word) :
    (∃ h : s.sp.val < 12,
      s.push w = some { s with stack := s.stack.set s.sp.val w h, sp := ⟨s.sp.val + 1, by omega⟩ }) ∨
    (s.sp.val = 12 ∧ s.push w = none) := by
  by_cases h : s.sp.val < 12
  · exact .inl ⟨h, by simp [State.push, h]⟩
  · exact .inr ⟨by omega, by simp [State.push, h]⟩

/-- A pop counts down and gives the slot that was the top, or the stack is empty. -/
theorem pop_cases (s : State) :
    (∃ h : 0 < s.sp.val,
      s.pop = some ({ s with sp := ⟨s.sp.val - 1, by omega⟩ }, s.stack[s.sp.val - 1]'(by omega))) ∨
    (s.sp.val = 0 ∧ s.pop = none) := by
  by_cases h : 0 < s.sp.val
  · exact .inl ⟨h, by simp [State.pop, h]⟩
  · exact .inr ⟨by omega, by simp [State.pop, h]⟩

/-! ### The ALU -/

theorem trunc8_toNat (v : Nat) : (trunc8 v).toNat = v % 256 := by simp [trunc8]

theorem flagByte_cases (f : Bool) : flagByte f = 0x00#8 ∨ flagByte f = 0x01#8 := by cases f <;> simp [flagByte]

/-- The flag is what `VF` holds afterwards, also when `x` is `VF`; every register but `V[x]` and `VF` is kept. -/
theorem writeAlu_getV (s : State) (x r : Reg) (o : AluOut) :
    (writeAlu s x o).getV r = if r = vf then flagByte o.2 else if r = x then o.1 else s.getV r := by
  simp only [writeAlu, State.setV_getV]

/-! ### Spans of memory -/

theorem spanFits_iff (base n : Nat) : spanFits base n = true ↔ n = 0 ∨ base + n ≤ 4096 := by simp [spanFits]

@[simp] theorem bcdDigits_length (b : Byte) : (bcdDigits b).length = 3 := rfl

@[simp] theorem regBlock_length (s : State) (x : Reg) : (regBlock s x).length = x.toNat + 1 := by
  have : x.toNat < 16 := x.isLt
  simp only [regBlock, List.length_take, Vector.length_toList]
  omega

theorem regBlock_getElem (s : State) (x : Reg) (k : Nat) (h : k < (regBlock s x).length) :
    (regBlock s x)[k] = s.getV (BitVec.ofNat 4 k) := by
  have hx : x.toNat < 16 := x.isLt
  have hk : k < 16 := by rw [regBlock_length] at h; omega
  simp [regBlock, State.getV, Nat.mod_eq_of_lt hk]

/-- The block load: `V[r]` for `r` up to `x` from memory, the rest kept. -/
theorem loadedRegs_getElem (s : State) (x r : Reg) (base : Nat) :
    (loadedRegs s x base)[r.toNat]'r.isLt =
      if r.toNat ≤ x.toNat then s.readByte (base + r.toNat) else s.getV r := by
  simp [loadedRegs, State.getV]

/-! ### Pixels -/

theorem pixel_blank (idx : Nat) : pixel blankScreen idx = false := by simp [pixel, blankScreen]

/-- Toggling one pixel of the screen flips that pixel and no other. -/
theorem pixel_togglePixel (fb : Screen) (i j : Nat) (hi : i < 2048) (hj : j < 2048) :
    pixel (togglePixel fb i) j = (pixel fb j ^^ decide (i = j)) := by
  simp only [pixel, togglePixel, Vector.getElem_set]
  by_cases hrow : i / 64 % 32 = j / 64 % 32
  · rw [if_pos hrow]
    simp only [BitVec.getLsbD_xor, BitVec.getLsbD_twoPow, hrow]
    by_cases h : i = j
    · subst h; simp [Nat.mod_lt]
    · have : i % 64 ≠ j % 64 := by omega
      simp [h, this]
  · rw [if_neg hrow]
    have : i ≠ j := by rintro rfl; exact hrow rfl
    simp [this]

/-- Two screens with the same 2048 pixels are the same. -/
theorem screen_ext {a b : Screen} (h : ∀ i < 2048, pixel a i = pixel b i) : a = b := by
  apply Vector.ext
  intro r hr
  apply BitVec.eq_of_getLsbD_eq
  intro c hc
  have := h (r * 64 + c) (by omega)
  have hq : (r * 64 + c) / 64 % 32 = r := by omega
  have hm : (r * 64 + c) % 64 = c := by omega
  simpa [pixel, hq, hm] using this

/-- What drawing a list of distinct pixels does: each listed pixel flips, every other stays, and the flag is set
exactly when a listed pixel was set before. -/
theorem drawPixels_spec (l : List Nat) (fb : Screen) (f : Bool) (hl : ∀ i ∈ l, i < 2048) (hn : l.Nodup) :
    (∀ j < 2048, pixel (drawPixels (fb, f) l).1 j = (pixel fb j ^^ decide (j ∈ l))) ∧
    (drawPixels (fb, f) l).2 = (f || l.any (pixel fb)) := by
  induction l generalizing fb f with
  | nil => simp [drawPixels]
  | cons i l ih =>
    have hi : i < 2048 := hl i (by simp)
    have hnd := List.nodup_cons.mp hn
    have ih := ih (togglePixel fb i) (f || pixel fb i) (fun k hk => hl k (by simp [hk])) hnd.2
    refine ⟨fun j hj => ?_, ?_⟩
    · rw [drawPixels, ih.1 j hj, pixel_togglePixel fb i j hi hj]
      by_cases hij : i = j
      · subst hij; simp [hnd.1]
      · simp [hij, Ne.symm hij]
    · rw [drawPixels, ih.2, List.any_cons, Bool.or_assoc]
      congr 2
      rw [Bool.eq_iff_iff, List.any_eq_true, List.any_eq_true]
      refine ⟨fun ⟨k, hk, hp⟩ => ⟨k, hk, ?_⟩, fun ⟨k, hk, hp⟩ => ⟨k, hk, ?_⟩⟩ <;>
      · have hik : i ≠ k := by rintro rfl; exact hnd.1 hk
        have := pixel_togglePixel fb i k hi (hl k (by simp [hk]))
        simp [hik] at this
        simp_all

/-! ### The sprite's pixels -/

theorem spriteIndex_lt (vx vy row col : Nat) : spriteIndex vx vy row col < 2048 := by
  simp only [spriteIndex]; exact Nat.mod_lt _ (by decide)

theorem mem_spriteRowPixels {vx vy row : Nat} {b : Byte} {j : Nat} :
    j ∈ spriteRowPixels vx vy row b ↔ ∃ col < 8, b.getLsbD (7 - col) = true ∧ j = spriteIndex vx vy row col := by
  simp only [spriteRowPixels, List.mem_map, List.mem_filter, List.mem_range]
  constructor
  · rintro ⟨c, ⟨h, hb⟩, rfl⟩; exact ⟨c, h, hb, rfl⟩
  · rintro ⟨c, h, hb, rfl⟩; exact ⟨c, ⟨h, hb⟩, rfl⟩

/-- A pixel is toggled exactly when a set bit of a sprite byte lands on it. -/
theorem mem_spritePixels {vx vy row : Nat} {bs : List Byte} {j : Nat} :
    j ∈ spritePixels vx vy row bs ↔
      ∃ (k : Nat) (hk : k < bs.length) (col : Nat),
        col < 8 ∧ bs[k].getLsbD (7 - col) = true ∧ j = spriteIndex vx vy (row + k) col := by
  induction bs generalizing row with
  | nil => simp [spritePixels]
  | cons b bs ih =>
    rw [spritePixels, List.mem_append, mem_spriteRowPixels, ih]
    constructor
    · rintro (⟨c, hc, hb, rfl⟩ | ⟨k, hk, c, hc, hb, rfl⟩)
      · exact ⟨0, by simp, c, hc, hb, by simp⟩
      · exact ⟨k + 1, by simpa using hk, c, hc, hb, by rw [show row + 1 + k = row + (k + 1) by omega]⟩
    · rintro ⟨k, hk, c, hc, hb, rfl⟩
      cases k with
      | zero => exact .inl ⟨c, hc, hb, by simp⟩
      | succ k =>
        exact .inr ⟨k, by simpa using hk, c, hc, hb, by rw [show row + 1 + k = row + (k + 1) by omega]⟩

/-- No two pixels of one sprite of at most 31 rows land on the same index (R186). -/
theorem spriteIndex_inj {vx vy r c r' c' : Nat} (hc : c < 8) (hc' : c' < 8) (hr : r < 31) (hr' : r' < 31)
    (h : spriteIndex vx vy r c = spriteIndex vx vy r' c') : r = r' ∧ c = c' := by
  have e : ((vy + r) * 64 + (vx + c)) % 2048 = ((vy + r') * 64 + (vx + c')) % 2048 := h
  omega

theorem nodup_spritePixels {vx vy row : Nat} {bs : List Byte} (h : row + bs.length < 32) :
    (spritePixels vx vy row bs).Nodup := by
  induction bs generalizing row with
  | nil => simp [spritePixels]
  | cons b bs ih =>
    simp only [List.length_cons] at h
    rw [spritePixels, List.nodup_append]
    refine ⟨?_, ih (by omega), ?_⟩
    · refine List.Nodup.map_on ?_ (List.nodup_range.filter _)
      intro c hc d hd he
      simp only [List.mem_filter, List.mem_range] at hc hd
      exact (spriteIndex_inj hc.1 hd.1 (by omega) (by omega) he).2
    · rintro a ha b' hb' rfl
      obtain ⟨c, hc, -, rfl⟩ := mem_spriteRowPixels.mp ha
      obtain ⟨k, hk, c', hc', -, he⟩ := mem_spritePixels.mp hb'
      have := (spriteIndex_inj hc hc' (by omega) (by omega) he).1
      omega

/-! ### The keypad scan -/

/-- The scan gives the least index whose key is down, or no key is down. -/
theorem leastDown_spec (l : List Bool) (k : Nat) :
    (∃ j, leastDown l k = some (k + j) ∧ l[j]? = some true ∧ ∀ m < j, l[m]? = some false) ∨
    (leastDown l k = none ∧ ∀ d ∈ l, d = false) := by
  induction l generalizing k with
  | nil => exact .inr ⟨rfl, by simp⟩
  | cons d l ih =>
    cases d with
    | true => exact .inl ⟨0, rfl, rfl, by omega⟩
    | false =>
      rcases ih (k + 1) with ⟨j, h, ht, hf⟩ | ⟨h, hf⟩
      · refine .inl ⟨j + 1, ?_, by simpa using ht, fun m hm => ?_⟩
        · simpa [leastDown, Nat.add_assoc, Nat.add_comm 1] using h
        · cases m with
          | zero => rfl
          | succ m => simpa using hf m (by omega)
      · exact .inr ⟨by simpa [leastDown] using h, by simpa using hf⟩

end Sys2Proof.Machine
end

