-- ==== Sys2Proof/Laws/Exec.lean ====
section
/-! SUPPORT. What an instruction can do, said once: it runs, and keeps the mode and the inputs, when no condition of the
cause table holds, or it takes the fault of the one condition that does (spec/60_exceptions.md R222, R224). And the small
facts about frames. -/

namespace Sys2Proof.Machine

/-! ### Frames -/

theorem KeptBut.refl (ps : List Part) (s : State) : KeptBut ps s s := by
  intro p _; cases p <;> simp [Part.kept]

theorem Part.kept_trans {p : Part} {s t u : State} (h : p.kept s t) (h' : p.kept t u) : p.kept s u := by
  cases p <;> simp only [Part.kept] at h h' ⊢ <;> simp_all

theorem KeptBut.trans {ps : List Part} {s t u : State} (h : KeptBut ps s t) (h' : KeptBut ps t u) :
    KeptBut ps s u := fun p hp => Part.kept_trans (h p hp) (h' p hp)

theorem KeptBut.mono {ps qs : List Part} {s t : State} (h : KeptBut ps s t) (hs : ∀ p ∈ ps, p ∈ qs) :
    KeptBut qs s t := fun p hp => h p (fun hm => hp (hs p hm))

/-- A frame from its parts, each of which may be assumed not to be among those given up. -/
theorem keptBut_iff {ps : List Part} {s t : State} :
    KeptBut ps s t ↔
      (.regs ∉ ps → ∀ r, t.getV r = s.getV r) ∧ (.index ∉ ps → t.i = s.i) ∧ (.pc ∉ ps → t.pc = s.pc) ∧
      (.stack ∉ ps → t.stack = s.stack ∧ t.sp = s.sp) ∧ (.delay ∉ ps → t.dt = s.dt) ∧ (.sound ∉ ps → t.st = s.st) ∧
      (.screen ∉ ps → t.fb = s.fb) ∧ (.mode ∉ ps → t.mode = s.mode) ∧
      (.memory ∉ ps → ∀ a, t.readByte a = s.readByte a) ∧ (.draws ∉ ps → t.draws = s.draws) ∧
      (.inputs ∉ ps → t.key = s.key ∧ t.rndIn = s.rndIn ∧ t.hostEvents = s.hostEvents ∧ t.loadable = s.loadable) := by
  constructor
  · intro h
    exact ⟨h .regs, h .index, h .pc, h .stack, h .delay, h .sound, h .screen, h .mode, h .memory, h .draws, h .inputs⟩
  · rintro ⟨h1, h2, h3, h4, h5, h6, h7, h8, h9, h10, h11⟩ p hp
    cases p
    exacts [h1 hp, h2 hp, h3 hp, h4 hp, h5 hp, h6 hp, h7 hp, h8 hp, h9 hp, h10 hp, h11 hp]

/-- The invariant is about memory, `PC` and the stack slots only. -/
theorem State.Inv.congr {s t : State} (h : s.Inv) (hm : t.mem = s.mem) (hp : t.pc = s.pc)
    (hs : t.stack = s.stack) : t.Inv := by
  refine ⟨by rw [hm]; exact h.1, by rw [hp]; exact h.2.1, fun k hk => ?_⟩
  simp only [hs]
  exact h.2.2 k hk

/-! ### How `exec` ends -/

/-- No condition of the cause table holds of this instruction. -/
theorem no_faultCondition {i : Instr} {s : State} (ho : ¬ FaultCondition .stackOverflow i s)
    (hu : ¬ FaultCondition .stackUnderflow i s) (ha : ¬ FaultCondition .addressOutOfRange i s) :
    ∀ c, ¬ FaultCondition c i s := by
  intro c; cases c <;> assumption

theorem faultCondition_unique {c d : Fault} {i : Instr} {s : State} (h : FaultCondition c i s)
    (h' : FaultCondition d i s) : c = d := by
  cases i <;> cases c <;> cases d <;> first | rfl | exact h.elim | exact h'.elim

/-- An instruction with no fault condition ends in `retire` of a state with the mode as it was. -/
def Retires (i : Instr) (s : State) : Prop := ∃ t, exec i s = retire t ∧ t.mode = s.mode

theorem retires_of {i : Instr} {s t : State} (h : exec i s = retire t) (hm : t.mode = s.mode) : Retires i s :=
  ⟨t, h, hm⟩

theorem skipIf_mode (s : State) (c : Bool) : (s.skipIf c).mode = s.mode := by cases c <;> rfl

theorem execCall_cases (nnn : Addr12) (s : State) :
    (s.sp.val = 12 ∧ exec (.call nnn) s = raiseFault .stackOverflow (.call nnn) s) ∨
    (s.sp.val < 12 ∧ Retires (.call nnn) s) := by
  rcases push_cases s s.pc with ⟨h, e⟩ | ⟨h, e⟩
  · exact .inr ⟨h, by unfold Retires; simp only [exec, execCall, e]; exact ⟨_, rfl, rfl⟩⟩
  · exact .inl ⟨h, by simp only [exec, execCall, e]⟩

theorem execRet_cases (s : State) :
    (s.sp.val = 0 ∧ exec .ret s = raiseFault .stackUnderflow .ret s) ∨ (0 < s.sp.val ∧ Retires .ret s) := by
  rcases pop_cases s with ⟨h, e⟩ | ⟨h, e⟩
  · exact .inr ⟨h, by unfold Retires; simp only [exec, execRet, e]; exact ⟨_, rfl, rfl⟩⟩
  · exact .inl ⟨h, by simp only [exec, execRet, e]⟩

/-- A memory instruction faults when its span passes 0xFFF and runs otherwise. -/
theorem spanned_cases {i : Instr} {s t : State} {n : Nat}
    (h : exec i s = if spanFits (baseAddr s) n then retire t else raiseFault .addressOutOfRange i s)
    (hm : t.mode = s.mode) :
    ((n = 0 ∨ s.i.toNat + n ≤ 4096) ∧ Retires i s) ∨
    (n ≠ 0 ∧ s.i.toNat + n > 4096 ∧ exec i s = raiseFault .addressOutOfRange i s) := by
  by_cases hf : spanFits (baseAddr s) n = true
  · exact .inl ⟨(spanFits_iff _ _).mp hf, retires_of (by rw [h, if_pos hf]) hm⟩
  · have hn := mt (spanFits_iff (baseAddr s) n).mpr hf
    simp only [baseAddr, not_or] at hn
    exact .inr ⟨hn.1, by omega, by rw [h, if_neg hf]⟩

/-- Every instruction runs, when no fault condition holds, or takes the fault whose condition holds. -/
theorem exec_cases (i : Instr) (s : State) :
    (Retires i s ∧ ∀ c, ¬ FaultCondition c i s) ∨ ∃ c, FaultCondition c i s ∧ exec i s = raiseFault c i s := by
  cases i
  case ret =>
    rcases execRet_cases s with ⟨h, e⟩ | ⟨h, e⟩
    · exact .inr ⟨.stackUnderflow, h, e⟩
    · exact .inl ⟨e, no_faultCondition id (fun hc => by simp only [FaultCondition] at hc; omega) id⟩
  case call nnn =>
    rcases execCall_cases nnn s with ⟨h, e⟩ | ⟨h, e⟩
    · exact .inr ⟨.stackOverflow, h, e⟩
    · exact .inl ⟨e, no_faultCondition (fun hc => by simp only [FaultCondition] at hc; omega) id id⟩
  case drw x y n =>
    rcases spanned_cases (i := .drw x y n) (s := s) rfl rfl with ⟨h, e⟩ | ⟨h0, h, e⟩
    · exact .inl ⟨e, no_faultCondition id id (fun hc => by simp only [FaultCondition] at hc; omega)⟩
    · exact .inr ⟨.addressOutOfRange, by simp only [FaultCondition]; omega, e⟩
  case ldB x =>
    rcases spanned_cases (i := .ldB x) (s := s) rfl rfl with ⟨h, e⟩ | ⟨h0, h, e⟩
    · exact .inl ⟨e, no_faultCondition id id (fun hc => by simp only [FaultCondition] at hc; omega)⟩
    · exact .inr ⟨.addressOutOfRange, by simp only [FaultCondition]; omega, e⟩
  case stRegs x =>
    rcases spanned_cases (i := .stRegs x) (s := s) rfl rfl with ⟨h, e⟩ | ⟨h0, h, e⟩
    · exact .inl ⟨e, no_faultCondition id id (fun hc => by simp only [FaultCondition] at hc; omega)⟩
    · exact .inr ⟨.addressOutOfRange, by simp only [FaultCondition]; omega, e⟩
  case ldRegs x =>
    rcases spanned_cases (i := .ldRegs x) (s := s) rfl rfl with ⟨h, e⟩ | ⟨h0, h, e⟩
    · exact .inl ⟨e, no_faultCondition id id (fun hc => by simp only [FaultCondition] at hc; omega)⟩
    · exact .inr ⟨.addressOutOfRange, by simp only [FaultCondition]; omega, e⟩
  case ldVxK x =>
    refine .inl ⟨?_, no_faultCondition id id id⟩
    unfold Retires
    simp only [exec, execLdVxK]
    split <;> exact ⟨_, rfl, rfl⟩
  case seImm | sneImm | seReg | sneReg | skp | sknp =>
    exact .inl ⟨retires_of rfl (skipIf_mode _ _), no_faultCondition id id id⟩
  all_goals exact .inl ⟨retires_of rfl rfl, no_faultCondition id id id⟩

/-- `exec` always answers a next state. -/
theorem exec_next (i : Instr) (s : State) : ∃ t, exec i s = .next t := by
  rcases exec_cases i s with ⟨⟨t, h, -⟩, -⟩ | ⟨c, -, h⟩
  · exact ⟨_, h⟩
  · exact ⟨_, h⟩

/-! ### The instructions that can fault, each on its two sides -/

theorem exec_call_room {s : State} (nnn : Addr12) (h : s.sp.val < 12) :
    exec (.call nnn) s = retire ({ s with
      stack := s.stack.set s.sp.val s.pc h, sp := ⟨s.sp.val + 1, by omega⟩ }.setPc (addrOperand nnn)) := by
  simp only [exec, execCall, State.push, h, dif_pos]

theorem exec_call_full {s : State} (nnn : Addr12) (h : s.sp.val = 12) :
    exec (.call nnn) s = raiseFault .stackOverflow (.call nnn) s := by
  have : ¬ s.sp.val < 12 := by omega
  simp only [exec, execCall, State.push, this, dif_neg, not_false_eq_true]

theorem exec_ret_live {s : State} {d : Nat} (hd : d < 12) (h : s.sp.val = d + 1) :
    exec .ret s = retire ({ s with sp := ⟨d, by omega⟩ }.setPc s.stack[d]) := by
  have h0 : 0 < d + 1 := by omega
  simp only [exec, execRet, State.pop, h, h0, dif_pos, Nat.add_sub_cancel]

theorem exec_ret_empty {s : State} (h : s.sp.val = 0) : exec .ret s = raiseFault .stackUnderflow .ret s := by
  have : ¬ 0 < s.sp.val := by omega
  simp only [exec, execRet, State.pop, this, dif_neg, not_false_eq_true]

theorem exec_ldB_fits {s : State} (x : Reg) (h : s.i.toNat + 2 ≤ 0xFFF) :
    exec (.ldB x) s = retire (s.setMem (Memory.writeSpan s.mem s.i.toNat (bcdDigits (s.getV x)))) := by
  simp only [exec, execLdB, baseAddr, (spanFits_iff s.i.toNat 3).mpr (by omega), if_true]

theorem exec_ldB_out {s : State} (x : Reg) (h : s.i.toNat + 2 > 0xFFF) :
    exec (.ldB x) s = raiseFault .addressOutOfRange (.ldB x) s := by
  have : ¬ spanFits s.i.toNat 3 = true := by rw [spanFits_iff]; omega
  exact if_neg this

theorem exec_stRegs_fits {s : State} (x : Reg) (h : s.i.toNat + x.toNat ≤ 0xFFF) :
    exec (.stRegs x) s = retire (s.setMem (Memory.writeSpan s.mem s.i.toNat (regBlock s x))) := by
  simp only [exec, execStRegs, baseAddr, (spanFits_iff s.i.toNat (x.toNat + 1)).mpr (by omega), if_true]

theorem exec_stRegs_out {s : State} (x : Reg) (h : s.i.toNat + x.toNat > 0xFFF) :
    exec (.stRegs x) s = raiseFault .addressOutOfRange (.stRegs x) s := by
  have : ¬ spanFits s.i.toNat (x.toNat + 1) = true := by rw [spanFits_iff]; omega
  exact if_neg this

theorem exec_ldRegs_fits {s : State} (x : Reg) (h : s.i.toNat + x.toNat ≤ 0xFFF) :
    exec (.ldRegs x) s = retire (s.setRegs (loadedRegs s x s.i.toNat)) := by
  simp only [exec, execLdRegs, baseAddr, (spanFits_iff s.i.toNat (x.toNat + 1)).mpr (by omega), if_true]

theorem exec_ldRegs_out {s : State} (x : Reg) (h : s.i.toNat + x.toNat > 0xFFF) :
    exec (.ldRegs x) s = raiseFault .addressOutOfRange (.ldRegs x) s := by
  have : ¬ spanFits s.i.toNat (x.toNat + 1) = true := by rw [spanFits_iff]; omega
  exact if_neg this

/-- The framebuffer and the flag a draw computes from the state before it (R182). -/
def drawnScreen (s : State) (x y : Reg) (n : Nibble) : Screen × Bool :=
  drawPixels (s.fb, false)
    (spritePixels (s.getV x).toNat (s.getV y).toNat 0 (Memory.readSpan s.mem s.i.toNat n.toNat))

theorem exec_drw_fits {s : State} (x y : Reg) (n : Nibble) (h : n.toNat = 0 ∨ s.i.toNat + n.toNat - 1 ≤ 0xFFF) :
    exec (.drw x y n) s =
      retire ((s.setFb (drawnScreen s x y n).1).setV vf (flagByte (drawnScreen s x y n).2)) := by
  simp only [exec, execDrw, baseAddr, (spanFits_iff s.i.toNat n.toNat).mpr (by omega), if_true]
  rfl

theorem exec_drw_out {s : State} (x y : Reg) (n : Nibble) (h1 : 1 ≤ n.toNat) (h : s.i.toNat + n.toNat - 1 > 0xFFF) :
    exec (.drw x y n) s = raiseFault .addressOutOfRange (.drw x y n) s := by
  have : ¬ spanFits s.i.toNat n.toNat = true := by rw [spanFits_iff]; omega
  exact if_neg this

/-- The indices a draw toggles are the pixels its sprite hits, each once (R182, R186). -/
theorem mem_drawn_iff (s : State) (x y : Reg) (n : Nibble) (j : Nat) :
    j ∈ spritePixels (s.getV x).toNat (s.getV y).toNat 0 (Memory.readSpan s.mem s.i.toNat n.toNat) ↔
      SpriteHits s x y n j := by
  rw [mem_spritePixels]
  constructor
  · rintro ⟨k, hk, col, hc, hb, rfl⟩
    rw [Memory.getElem_readSpan] at hb
    exact ⟨k, col, by simpa using hk, hc, hb, by rw [Nat.zero_add]; rfl⟩
  · rintro ⟨k, col, hk, hc, hb, rfl⟩
    refine ⟨k, by simpa using hk, col, hc, ?_, by rw [Nat.zero_add]; rfl⟩
    rw [Memory.getElem_readSpan]
    exact hb

end Sys2Proof.Machine
end

