-- ==== Sys2Proof/Laws/Events.lean ====
section
/-! SUPPORT. What each event of the host other than `STEP` does, said once on each of its sides
(spec/45_timers_keypad.md R204, R209; spec/70_reset_and_hazards.md R250 to R261), and what the keypad scan and a draw give. -/

namespace Sys2Proof.Machine

@[simp] theorem memSize_eq : Config.memSize = 4096 := rfl

@[simp] theorem maxRomSize_eq : Config.maxRomSize = 3584 := rfl

/-! ### Timers -/

/-- A tick takes one from a timer, and zero stays zero (R204). -/
theorem tickTimer_toNat (b : Byte) : (tickTimer b).toNat = b.toNat - 1 := by
  unfold tickTimer
  split
  · simp_all
  · rename_i h
    have h0 : b.toNat ≠ 0 := fun e => h (BitVec.eq_of_toNat_eq e)
    have := b.isLt
    rw [BitVec.toNat_sub]
    simp
    omega

/-! ### The keypad -/

theorem keyIndex_wellFormed_iff (index : Nat) : KeyIndex.wellFormed index = true ↔ index < 16 := by
  simp [KeyIndex.wellFormed]

theorem setKeyEvent_inside {index : Nat} (down : Bool) (s : State) (h : index < 16) :
    setKeyEvent index down s = { s with key := s.key.setIfInBounds index down, reply := .nothing } :=
  if_pos ((keyIndex_wellFormed_iff index).mpr h)

theorem setKeyEvent_outside {index : Nat} (down : Bool) (s : State) (h : ¬ index < 16) :
    setKeyEvent index down s = s.setReply .refused :=
  if_neg (mt (keyIndex_wellFormed_iff index).mp h)

/-- The scan gives the least key that is down, or no key is down (R203). -/
theorem leastKeyDown_cases (s : State) :
    (∃ (k : Nat) (hk : k < 16), s.key[k] = true ∧ (∀ (j : Nat) (_ : j < k), s.key[j] = false) ∧
      leastKeyDown s = some (BitVec.ofNat 8 k)) ∨
    ((∀ (k : Nat) (hk : k < 16), s.key[k] = false) ∧ leastKeyDown s = none) := by
  rcases leastDown_spec s.key.toList 0 with ⟨j, h, ht, hf⟩ | ⟨h, hf⟩
  · have hj : j < 16 := by
      by_contra hh
      rw [List.getElem?_eq_none (by simpa using hh)] at ht
      cases ht
    refine .inl ⟨j, hj, ?_, ?_, by simp [leastKeyDown, h]⟩
    · rw [List.getElem?_eq_getElem (by simpa using hj)] at ht
      simpa using ht
    · intro m hm
      have := hf m hm
      rw [List.getElem?_eq_getElem (by simp; omega)] at this
      simpa using this
  · exact .inr ⟨fun k hk => hf _ (by simp), by simp [leastKeyDown, h]⟩

/-! ### The mode events -/

theorem pauseEvent_running {s : State} (h : s.mode = .running) :
    pauseEvent s = (s.setMode .paused).setReply .nothing := by
  rw [pauseEvent, if_pos h]

theorem pauseEvent_other {s : State} (h : s.mode ≠ .running) : pauseEvent s = s.setReply .nothing := by
  rw [pauseEvent, if_neg h]

theorem resumeEvent_paused {s : State} (h : s.mode = .paused) :
    resumeEvent s = (s.setMode .running).setReply .nothing := by
  rw [resumeEvent, if_pos h]

theorem resumeEvent_other {s : State} (h : s.mode ≠ .paused) : resumeEvent s = s.setReply .nothing := by
  rw [resumeEvent, if_neg h]

/-! ### Loading -/

theorem rom_wellFormed_iff (bytes : List Byte) : Rom.wellFormed bytes = true ↔ bytes.length ≤ 3584 := by
  simp [Rom.wellFormed]

theorem loadEvent_fits {s : State} {bytes : List Byte} (hl : s.loadable = true) (h : bytes.length ≤ 3584) :
    loadEvent bytes s =
      { s with mem := Memory.writeSpan s.mem Config.loadBase bytes, reply := .loadOk, loadable := false } := by
  rw [loadEvent, if_pos hl, if_pos ((rom_wellFormed_iff bytes).mpr h)]

theorem loadEvent_tooLarge {s : State} {bytes : List Byte} (hl : s.loadable = true) (h : bytes.length > 3584) :
    loadEvent bytes s = s.setReply .programTooLarge := by
  rw [loadEvent, if_pos hl, if_neg (mt (rom_wellFormed_iff bytes).mp (by omega))]

theorem loadEvent_late {s : State} (bytes : List Byte) (hl : s.loadable = false) :
    loadEvent bytes s = s.setReply .refused := by
  rw [loadEvent, if_neg (by simp [hl])]

/-! ### A draw -/

/-- A draw flips exactly the pixels its sprite hits and reports whether one of them was set (R182, R185, R186). -/
theorem drawnScreen_spec (s : State) (x y : Reg) (n : Nibble) :
    (∀ j < 2048, SpriteHits s x y n j → pixel (drawnScreen s x y n).1 j = !pixel s.fb j) ∧
    (∀ j < 2048, ¬ SpriteHits s x y n j → pixel (drawnScreen s x y n).1 j = pixel s.fb j) ∧
    ((drawnScreen s x y n).2 = true ↔ ∃ j < 2048, SpriteHits s x y n j ∧ pixel s.fb j = true) := by
  have hn : n.toNat < 16 := n.isLt
  have hl : ∀ i ∈ spritePixels (s.getV x).toNat (s.getV y).toNat 0 (Memory.readSpan s.mem s.i.toNat n.toNat),
      i < 2048 := by
    intro i hi
    obtain ⟨k, hk, c, hc, hb, rfl⟩ := mem_spritePixels.mp hi
    exact spriteIndex_lt _ _ _ _
  have h := drawPixels_spec _ s.fb false hl (nodup_spritePixels (by simp; omega))
  refine ⟨fun j hj hh => ?_, fun j hj hh => ?_, ?_⟩
  · rw [drawnScreen, h.1 j hj, decide_eq_true ((mem_drawn_iff s x y n j).mpr hh)]; simp
  · rw [drawnScreen, h.1 j hj, decide_eq_false (mt (mem_drawn_iff s x y n j).mp hh)]; simp
  · rw [drawnScreen, h.2, Bool.false_or, List.any_eq_true]
    exact ⟨fun ⟨j, hj, hp⟩ => ⟨j, hl j hj, (mem_drawn_iff s x y n j).mp hj, hp⟩,
      fun ⟨j, _, hh, hp⟩ => ⟨j, (mem_drawn_iff s x y n j).mpr hh, hp⟩⟩

end Sys2Proof.Machine
end

