-- ==== Sys2Proof/Laws/PerInstr.lean ====
section
/-! SUPPORT. The per-instruction family RowMatch: the encoding of an instruction is selected by its row of the opcode map
(spec/30_encoding.md R75), and that row is one of the 34. -/

namespace Sys2Proof.Laws.RowMatch

/-- `encode i & mask = match` for the instruction's own row, which is a row of the table. -/
def Statement (i : Instr) : Prop :=
  OpcodeRow.selects (opcodeRow i) (encode i) = true ∧ opcodeRow i ∈ opcodeTable

theorem opcodeRow_mem (i : Instr) : opcodeRow i ∈ opcodeTable := by
  cases i <;> simp [opcodeRow, opcodeTable]

theorem of_mask {i : Instr} (h : encode i &&& (opcodeRow i).2 = (opcodeRow i).1) : Statement i :=
  ⟨by simp [OpcodeRow.selects, h], opcodeRow_mem i⟩

/-! ### What a mask leaves of a packed word -/

section
variable (g : Nibble) (x y : Reg) (n : Nibble) (k : Byte) (a : Addr12)

theorem packNnn_mask : packNnn g a &&& 0xF000#16 = packNnn g 0#12 := by
  apply BitVec.eq_of_getLsbD_eq
  intro i hi
  simp only [packNnn, BitVec.getLsbD_and, BitVec.getLsbD_append, BitVec.getLsbD_zero]
  have hi : i ∈ List.range 16 := List.mem_range.mpr hi
  fin_cases hi <;> simp

theorem packXkk_mask_group : packXkk g x k &&& 0xF000#16 = packXkk g 0#4 0#8 := by
  apply BitVec.eq_of_getLsbD_eq
  intro i hi
  simp only [packXkk, BitVec.getLsbD_and, BitVec.getLsbD_append, BitVec.getLsbD_zero]
  have hi : i ∈ List.range 16 := List.mem_range.mpr hi
  fin_cases hi <;> simp

theorem packXkk_mask : packXkk g x k &&& 0xF0FF#16 = packXkk g 0#4 k := by
  apply BitVec.eq_of_getLsbD_eq
  intro i hi
  simp only [packXkk, BitVec.getLsbD_and, BitVec.getLsbD_append, BitVec.getLsbD_zero]
  have hi : i ∈ List.range 16 := List.mem_range.mpr hi
  fin_cases hi <;> simp

theorem packXyn_mask_group : packXyn g x y n &&& 0xF000#16 = packXyn g 0#4 0#4 0#4 := by
  apply BitVec.eq_of_getLsbD_eq
  intro i hi
  simp only [packXyn, BitVec.getLsbD_and, BitVec.getLsbD_append, BitVec.getLsbD_zero]
  have hi : i ∈ List.range 16 := List.mem_range.mpr hi
  fin_cases hi <;> simp

theorem packXyn_mask : packXyn g x y n &&& 0xF00F#16 = packXyn g 0#4 0#4 n := by
  apply BitVec.eq_of_getLsbD_eq
  intro i hi
  simp only [packXyn, BitVec.getLsbD_and, BitVec.getLsbD_append, BitVec.getLsbD_zero]
  have hi : i ∈ List.range 16 := List.mem_range.mpr hi
  fin_cases hi <;> simp

end

/-! ### One lemma per constructor -/

theorem cls : Statement .cls :=
  of_mask rfl

theorem ret : Statement .ret :=
  of_mask rfl

theorem jp (nnn : Addr12) : Statement (.jp nnn) :=
  of_mask (packNnn_mask 0x1#4 nnn)

theorem call (nnn : Addr12) : Statement (.call nnn) :=
  of_mask (packNnn_mask 0x2#4 nnn)

theorem seImm (x : Reg) (kk : Byte) : Statement (.seImm x kk) :=
  of_mask (packXkk_mask_group 0x3#4 x kk)

theorem sneImm (x : Reg) (kk : Byte) : Statement (.sneImm x kk) :=
  of_mask (packXkk_mask_group 0x4#4 x kk)

theorem seReg (x : Reg) (y : Reg) : Statement (.seReg x y) :=
  of_mask (packXyn_mask 0x5#4 x y 0x0#4)

theorem ldImm (x : Reg) (kk : Byte) : Statement (.ldImm x kk) :=
  of_mask (packXkk_mask_group 0x6#4 x kk)

theorem addImm (x : Reg) (kk : Byte) : Statement (.addImm x kk) :=
  of_mask (packXkk_mask_group 0x7#4 x kk)

theorem ldReg (x : Reg) (y : Reg) : Statement (.ldReg x y) :=
  of_mask (packXyn_mask 0x8#4 x y 0x0#4)

theorem orReg (x : Reg) (y : Reg) : Statement (.orReg x y) :=
  of_mask (packXyn_mask 0x8#4 x y 0x1#4)

theorem andReg (x : Reg) (y : Reg) : Statement (.andReg x y) :=
  of_mask (packXyn_mask 0x8#4 x y 0x2#4)

theorem xorReg (x : Reg) (y : Reg) : Statement (.xorReg x y) :=
  of_mask (packXyn_mask 0x8#4 x y 0x3#4)

theorem addReg (x : Reg) (y : Reg) : Statement (.addReg x y) :=
  of_mask (packXyn_mask 0x8#4 x y 0x4#4)

theorem sub (x : Reg) (y : Reg) : Statement (.sub x y) :=
  of_mask (packXyn_mask 0x8#4 x y 0x5#4)

theorem shr (x : Reg) (y : Reg) : Statement (.shr x y) :=
  of_mask (packXyn_mask 0x8#4 x y 0x6#4)

theorem subn (x : Reg) (y : Reg) : Statement (.subn x y) :=
  of_mask (packXyn_mask 0x8#4 x y 0x7#4)

theorem shl (x : Reg) (y : Reg) : Statement (.shl x y) :=
  of_mask (packXyn_mask 0x8#4 x y 0xE#4)

theorem sneReg (x : Reg) (y : Reg) : Statement (.sneReg x y) :=
  of_mask (packXyn_mask 0x9#4 x y 0x0#4)

theorem ldI (nnn : Addr12) : Statement (.ldI nnn) :=
  of_mask (packNnn_mask 0xA#4 nnn)

theorem jpV0 (nnn : Addr12) : Statement (.jpV0 nnn) :=
  of_mask (packNnn_mask 0xB#4 nnn)

theorem rnd (x : Reg) (kk : Byte) : Statement (.rnd x kk) :=
  of_mask (packXkk_mask_group 0xC#4 x kk)

theorem drw (x : Reg) (y : Reg) (n : Nibble) : Statement (.drw x y n) :=
  of_mask (packXyn_mask_group 0xD#4 x y n)

theorem skp (x : Reg) : Statement (.skp x) :=
  of_mask (packXkk_mask 0xE#4 x 0x9E#8)

theorem sknp (x : Reg) : Statement (.sknp x) :=
  of_mask (packXkk_mask 0xE#4 x 0xA1#8)

theorem ldVxDt (x : Reg) : Statement (.ldVxDt x) :=
  of_mask (packXkk_mask 0xF#4 x 0x07#8)

theorem ldVxK (x : Reg) : Statement (.ldVxK x) :=
  of_mask (packXkk_mask 0xF#4 x 0x0A#8)

theorem ldDtVx (x : Reg) : Statement (.ldDtVx x) :=
  of_mask (packXkk_mask 0xF#4 x 0x15#8)

theorem ldStVx (x : Reg) : Statement (.ldStVx x) :=
  of_mask (packXkk_mask 0xF#4 x 0x18#8)

theorem addI (x : Reg) : Statement (.addI x) :=
  of_mask (packXkk_mask 0xF#4 x 0x1E#8)

theorem ldF (x : Reg) : Statement (.ldF x) :=
  of_mask (packXkk_mask 0xF#4 x 0x29#8)

theorem ldB (x : Reg) : Statement (.ldB x) :=
  of_mask (packXkk_mask 0xF#4 x 0x33#8)

theorem stRegs (x : Reg) : Statement (.stRegs x) :=
  of_mask (packXkk_mask 0xF#4 x 0x55#8)

theorem ldRegs (x : Reg) : Statement (.ldRegs x) :=
  of_mask (packXkk_mask 0xF#4 x 0x65#8)

end Sys2Proof.Laws.RowMatch
end

