-- ==== Sys2Proof/Laws/Step.lean ====
section
/-! SUPPORT. What a step can do, said once: the event it takes, and the four ways a `STEP` ends
(spec/40_step_cycle.md R108, spec/60_exceptions.md R230). -/

namespace Sys2Proof.Machine

theorem step_eq (s : State) : step s = handle (nextEvent s) (takeEvent s) := rfl

theorem step_of_event {s : State} {e : Event} (h : nextEvent s = e) : step s = handle e (takeEvent s) := by
  rw [step_eq, h]

theorem nextEvent_nil {s : State} (h : s.hostEvents = []) : nextEvent s = .step none := by simp [nextEvent, h]

theorem nextEvent_cons {s : State} {e : Event} {es : List Event} (h : s.hostEvents = e :: es) : nextEvent s = e := by
  simp [nextEvent, h]

/-- Not Running: idle, and only the record of the host's events moves on (R92). -/
theorem stepEvent_idle {s : State} (rnd : Option Byte) (h : s.mode ≠ .running) :
    stepEvent rnd s = .next { s with loadable := false, reply := .cycle .idle } := by
  rw [stepEvent, if_neg h]; rfl

theorem stepEvent_running {s : State} (rnd : Option Byte) (h : s.mode = .running) :
    stepEvent rnd s = fetchDecodeExecute (acceptStep rnd s) := by
  rw [stepEvent, if_pos h]

theorem fetchFits_iff (s : State) : fetchFits s = true ↔ s.pc.toNat + 1 ≤ 0xFFF := by
  rw [fetchFits, spanFits_iff]; omega

theorem fetchWord_toNat (s : State) :
    (fetchWord s).toNat = 256 * (s.readByte s.pc.toNat).toNat + (s.readByte (s.pc.toNat + 1)).toNat :=
  Word.ofBytes_toNat _ _

/-- The fetch passes 0xFFF: the fetch fault (R93). -/
theorem fetchDecodeExecute_out {s : State} (h : s.pc.toNat + 1 > 0xFFF) :
    fetchDecodeExecute s = raiseFetchFault s := by
  have : fetchFits s = false := by rw [Bool.eq_false_iff, ne_eq, fetchFits_iff]; omega
  simp [fetchDecodeExecute, this]

/-- The word is an instruction: it is executed on the state with `PC` advanced (R94, R96). -/
theorem fetchDecodeExecute_ok {s : State} {i : Instr} (h : s.pc.toNat + 1 ≤ 0xFFF)
    (hd : decodeWord (fetchWord s) = .ok i) : fetchDecodeExecute s = exec i (s.setPc (s.pc + 2#16)) := by
  simp [fetchDecodeExecute, (fetchFits_iff s).mpr h, hd, advance]

/-- The word is none: the unknown opcode (R223). -/
theorem fetchDecodeExecute_unknown {s : State} {e : Reject} (h : s.pc.toNat + 1 ≤ 0xFFF)
    (hd : decodeWord (fetchWord s) = .error e) :
    fetchDecodeExecute s = .next ((s.setPc (s.pc + 2#16)).setReply (.cycle (.unknownOpcode s.pc (fetchWord s)))) := by
  simp [fetchDecodeExecute, (fetchFits_iff s).mpr h, hd, advance, unknownOpcode]

/-- What two bytes in memory decode to is what the fetched word decodes to. -/
theorem decodeWord_fetchWord {s : State} {i : Instr} (h : InstrAt i s s.pc.toNat) :
    decodeWord (fetchWord s) = .ok i := by
  obtain ⟨-, rest, hd⟩ := h
  simp only [Memory.readSpan, decode] at hd
  unfold fetchWord State.readByte
  cases hw : decodeWord (Word.ofBytes (Memory.read s.mem s.pc.toNat) (Memory.read s.mem (s.pc.toNat + 1))) with
  | error e => rw [hw] at hd; cases hd
  | ok j => rw [hw] at hd; cases hd; rfl

/-- What stands in memory at an address depends on memory alone. -/
theorem InstrAt.congr {i : Instr} {s t : State} {a : Nat} (h : InstrAt i s a)
    (hm : ∀ b, t.readByte b = s.readByte b) : InstrAt i t a := by
  obtain ⟨ha, rest, hd⟩ := h
  have hm' : ∀ b, Memory.read t.mem b = Memory.read s.mem b := hm
  exact ⟨ha, rest, by simpa only [Memory.readSpan, hm'] using hd⟩

/-- A run of one step more. -/
theorem run_succ (k : Nat) (s t : State) (h : step s = .next t) :
    Host.Core.run Sys2Proof.core (k + 1) s = Host.Core.run Sys2Proof.core k t := by
  have h' : Sys2Proof.core.step s = .next t := h
  simp only [Host.Core.run, h']

theorem run_zero (s : State) : Host.Core.run Sys2Proof.core 0 s = .next s := rfl

end Sys2Proof.Machine
end

