-- ==== Sys2Proof/Tests/Slice0.lean ====
section
/-! SUPPORT. The model's own tests: the checks on what comes from outside, each constructor's word written out from the
encodings of spec/30_encoding.md R75, one step of each instruction on a vector of spec/95_test_vectors.md (its name stands
at the test), and a witness for the hypotheses of every obligation that has some. -/

open Sys2Proof Sys2Proof.Machine

namespace Sys2Proof.Tests

/-! ### Helpers -/

/-- The reset state, by a short name. -/
abbrev reset : State := State.reset

/-- What `f` reads off the next state, if there is one. -/
def seen {α : Type} (f : State → α) : Answer → Option α
  | .next t => some (f t)
  | .fault _ => none
  | .refused _ => none

/-- One step with the word `w` where the machine fetches. -/
def ran (w : Nat) (s : State) : Answer := step (s.withFetchWord 16 w)

/-- One byte of memory preset. -/
def poke (s : State) (a : Nat) (b : Byte) : State := s.setMem (Memory.write s.mem a b)

/-- The reset state with these keys down. -/
def pressed (ks : List Nat) : State := { reset with key := ks.foldl (fun v k => v.setIfInBounds k true) reset.key }

/-- Pixels 0 and 2047 set. -/
def litScreen : Screen := togglePixel (togglePixel blankScreen 0) 2047

/-- The reset state with these events to come. -/
def hosted (es : List Event) : State := { reset with hostEvents := es }

/-! ### Well-formedness: a ROM of one byte too many and a key index too large are refused -/

theorem test_rom_largest_accepted : Rom.wellFormed (List.replicate 3584 0xAA#8) = true :=
  (rom_wellFormed_iff _).mpr (by rw [List.length_replicate])

theorem test_rom_one_larger_refused : Rom.wellFormed (List.replicate 3585 0xAA#8) = false :=
  Bool.eq_false_iff.mpr (mt (rom_wellFormed_iff _).mp (by rw [List.length_replicate]; decide))

theorem test_key_15_accepted : KeyIndex.wellFormed 15 = true := by decide

theorem test_key_16_refused : KeyIndex.wellFormed 16 = false := by decide

/-! ### Decoding: each word bit by bit from R75 -/

/-- `00E0`. -/
theorem test_decode_cls : decodeTableWord 16 0b0000000011100000 = some (.cls) := by decide

/-- `00EE`. -/
theorem test_decode_ret : decodeTableWord 16 0b0000000011101110 = some (.ret) := by decide

/-- `1234`. -/
theorem test_decode_jp : decodeTableWord 16 0b0001001000110100 = some (.jp 0x234) := by decide

/-- `2345`. -/
theorem test_decode_call : decodeTableWord 16 0b0010001101000101 = some (.call 0x345) := by decide

/-- `3556`. -/
theorem test_decode_seImm : decodeTableWord 16 0b0011010101010110 = some (.seImm 0x5 0x56) := by decide

/-- `4667`. -/
theorem test_decode_sneImm : decodeTableWord 16 0b0100011001100111 = some (.sneImm 0x6 0x67) := by decide

/-- `5780`. -/
theorem test_decode_seReg : decodeTableWord 16 0b0101011110000000 = some (.seReg 0x7 0x8) := by decide

/-- `6A2F`. -/
theorem test_decode_ldImm : decodeTableWord 16 0b0110101000101111 = some (.ldImm 0xA 0x2F) := by decide

/-- `7103`. -/
theorem test_decode_addImm : decodeTableWord 16 0b0111000100000011 = some (.addImm 0x1 0x03) := by decide

/-- `8120`. -/
theorem test_decode_ldReg : decodeTableWord 16 0b1000000100100000 = some (.ldReg 0x1 0x2) := by decide

/-- `8121`. -/
theorem test_decode_orReg : decodeTableWord 16 0b1000000100100001 = some (.orReg 0x1 0x2) := by decide

/-- `8122`. -/
theorem test_decode_andReg : decodeTableWord 16 0b1000000100100010 = some (.andReg 0x1 0x2) := by decide

/-- `8123`. -/
theorem test_decode_xorReg : decodeTableWord 16 0b1000000100100011 = some (.xorReg 0x1 0x2) := by decide

/-- `8AB4`. -/
theorem test_decode_addReg : decodeTableWord 16 0b1000101010110100 = some (.addReg 0xA 0xB) := by decide

/-- `8015`. -/
theorem test_decode_sub : decodeTableWord 16 0b1000000000010101 = some (.sub 0x0 0x1) := by decide

/-- `8126`. -/
theorem test_decode_shr : decodeTableWord 16 0b1000000100100110 = some (.shr 0x1 0x2) := by decide

/-- `8017`. -/
theorem test_decode_subn : decodeTableWord 16 0b1000000000010111 = some (.subn 0x0 0x1) := by decide

/-- `812E`. -/
theorem test_decode_shl : decodeTableWord 16 0b1000000100101110 = some (.shl 0x1 0x2) := by decide

/-- `9120`. -/
theorem test_decode_sneReg : decodeTableWord 16 0b1001000100100000 = some (.sneReg 0x1 0x2) := by decide

/-- `A2F0`. -/
theorem test_decode_ldI : decodeTableWord 16 0b1010001011110000 = some (.ldI 0x2F0) := by decide

/-- `B300`. -/
theorem test_decode_jpV0 : decodeTableWord 16 0b1011001100000000 = some (.jpV0 0x300) := by decide

/-- `C30F`. -/
theorem test_decode_rnd : decodeTableWord 16 0b1100001100001111 = some (.rnd 0x3 0x0F) := by decide

/-- `D125`. -/
theorem test_decode_drw : decodeTableWord 16 0b1101000100100101 = some (.drw 0x1 0x2 0x5) := by decide

/-- `E29E`. -/
theorem test_decode_skp : decodeTableWord 16 0b1110001010011110 = some (.skp 0x2) := by decide

/-- `E2A1`. -/
theorem test_decode_sknp : decodeTableWord 16 0b1110001010100001 = some (.sknp 0x2) := by decide

/-- `F307`. -/
theorem test_decode_ldVxDt : decodeTableWord 16 0b1111001100000111 = some (.ldVxDt 0x3) := by decide

/-- `F20A`. -/
theorem test_decode_ldVxK : decodeTableWord 16 0b1111001000001010 = some (.ldVxK 0x2) := by decide

/-- `F315`. -/
theorem test_decode_ldDtVx : decodeTableWord 16 0b1111001100010101 = some (.ldDtVx 0x3) := by decide

/-- `F318`. -/
theorem test_decode_ldStVx : decodeTableWord 16 0b1111001100011000 = some (.ldStVx 0x3) := by decide

/-- `F21E`. -/
theorem test_decode_addI : decodeTableWord 16 0b1111001000011110 = some (.addI 0x2) := by decide

/-- `F429`. -/
theorem test_decode_ldF : decodeTableWord 16 0b1111010000101001 = some (.ldF 0x4) := by decide

/-- `F033`. -/
theorem test_decode_ldB : decodeTableWord 16 0b1111000000110011 = some (.ldB 0x0) := by decide

/-- `F255`. -/
theorem test_decode_stRegs : decodeTableWord 16 0b1111001001010101 = some (.stRegs 0x2) := by decide

/-- `F165`. -/
theorem test_decode_ldRegs : decodeTableWord 16 0b1111000101100101 = some (.ldRegs 0x1) := by decide

/-- 30_encoding.md R77: `8008` is no instruction. -/
theorem test_decode_8008 : decodeTableWord 16 0x8008 = none := by decide

/-- 95_test_vectors.md section 3.7: words next to defined ones that are none. -/
theorem test_decode_neighbours :
    [0x0000, 0x00E1, 0x00EF, 0x5001, 0x512F, 0x800F, 0x9001, 0xE09F, 0xE0A0, 0xF006, 0xF00B, 0xF066, 0xF0FF].map
      (decodeTableWord 16) = List.replicate 13 none := by decide

/-! ### One step of each instruction -/

/-- T-D22. -/
theorem test_cls_clears_and_keeps_flag :
    seen (fun t => (pixel t.fb 0, pixel t.fb 2047, t.getV 0xF)) (ran 0x00E0 ({ reset with fb := litScreen }.setV 0xF 0x01)) =
      some (false, false, 0x01#8) := by decide

/-- T-C8. -/
theorem test_ret_pops :
    seen (fun t => (t.pc.toNat, t.sp.val)) (ran 0x00EE ({ reset with pc := 0x0300, sp := 1, stack := Vector.replicate 12 0x0202 })) =
      some (0x0202, 0) := by decide

/-- T-C9. -/
theorem test_ret_empty_faults :
    seen (fun t => (t.reply, t.pc.toNat, t.mode)) (ran 0x00EE ({ reset with pc := 0x0300 })) =
      some (.cycle (.fault .stackUnderflow 0x0300 (some 0x00EE)), 0x0302, .halted) := by decide

/-- T-C1. -/
theorem test_jp :
    seen (fun t => (t.pc.toNat, t.reply)) (ran 0x1234 (reset)) =
      some (0x0234, .cycle .executed) := by decide

/-- T-C6b. -/
theorem test_call_pushes :
    seen (fun t => (t.pc.toNat, t.sp.val, t.stack[11].toNat)) (ran 0x2300 ({ reset with sp := 11 })) =
      some (0x0300, 12, 0x0202) := by decide

/-- T-C7. -/
theorem test_call_full_faults :
    seen (fun t => (t.reply, t.pc.toNat, t.mode)) (ran 0x2300 ({ reset with sp := 12 })) =
      some (.cycle (.fault .stackOverflow 0x0200 (some 0x2300)), 0x0202, .halted) := by decide

/-- T-C10. -/
theorem test_seImm_skips :
    seen (fun t => t.pc.toNat) (ran 0x332A (reset.setV 3 0x2A)) =
      some 0x0204 := by decide

/-- T-C11. -/
theorem test_seImm_keeps :
    seen (fun t => t.pc.toNat) (ran 0x332B (reset.setV 3 0x2A)) =
      some 0x0202 := by decide

/-- T-C12. -/
theorem test_sneImm_keeps :
    seen (fun t => t.pc.toNat) (ran 0x432A (reset.setV 3 0x2A)) =
      some 0x0202 := by decide

/-- T-C13. -/
theorem test_sneImm_skips :
    seen (fun t => t.pc.toNat) (ran 0x432B (reset.setV 3 0x2A)) =
      some 0x0204 := by decide

/-- T-C14. -/
theorem test_seReg_skips :
    seen (fun t => t.pc.toNat) (ran 0x5120 ((reset.setV 1 7).setV 2 7)) =
      some 0x0204 := by decide

/-- T-C15. -/
theorem test_seReg_keeps :
    seen (fun t => t.pc.toNat) (ran 0x5120 ((reset.setV 1 7).setV 2 8)) =
      some 0x0202 := by decide

/-- T-A1. -/
theorem test_ldImm :
    seen (fun t => t.getV 0xA) (ran 0x6A2F (reset)) =
      some 0x2F#8 := by decide

/-- T-A4. -/
theorem test_addImm_wraps_without_flag :
    seen (fun t => (t.getV 1, t.getV 0xF)) (ran 0x7103 ((reset.setV 1 0xFE).setV 0xF 1)) =
      some (0x01#8, 0x01#8) := by decide

/-- T-A5. -/
theorem test_addImm_to_VF :
    seen (fun t => t.getV 0xF) (ran 0x7F01 (reset.setV 0xF 0xFF)) =
      some 0x00#8 := by decide

/-- T-A7. -/
theorem test_ldReg :
    seen (fun t => (t.getV 1, t.getV 2)) (ran 0x8120 (reset.setV 2 0x37)) =
      some (0x37#8, 0x37#8) := by decide

/-- T-A8. -/
theorem test_or :
    seen (fun t => (t.getV 1, t.getV 0xF)) (ran 0x8121 (((reset.setV 1 0xF0).setV 2 0x0F).setV 0xF 1)) =
      some (0xFF#8, 0x01#8) := by decide

/-- T-A9. -/
theorem test_and :
    seen (fun t => (t.getV 1, t.getV 0xF)) (ran 0x8122 (((reset.setV 1 0xF3).setV 2 0x3F).setV 0xF 1)) =
      some (0x33#8, 0x01#8) := by decide

/-- T-A10. -/
theorem test_xor :
    seen (fun t => (t.getV 1, t.getV 0xF)) (ran 0x8123 (((reset.setV 1 0xFF).setV 2 0x0F).setV 0xF 1)) =
      some (0xF0#8, 0x01#8) := by decide

/-- S4. -/
theorem test_add_carries :
    seen (fun t => (t.getV 0, t.getV 0xF)) (ran 0x8014 ((reset.setV 0 0xFF).setV 1 1)) =
      some (0x00#8, 0x01#8) := by decide

/-- T-A18. -/
theorem test_add_to_VF_leaves_flag :
    seen (fun t => t.getV 0xF) (ran 0x8F14 ((reset.setV 0xF 1).setV 1 1)) =
      some 0x00#8 := by decide

/-- S5. -/
theorem test_sub_borrows :
    seen (fun t => (t.getV 0, t.getV 0xF)) (ran 0x8015 ((reset.setV 0 3).setV 1 5)) =
      some (0xFE#8, 0x00#8) := by decide

/-- T-A20. -/
theorem test_sub_equal :
    seen (fun t => (t.getV 0, t.getV 0xF)) (ran 0x8015 (((reset.setV 0 5).setV 1 5).setV 0xF 1)) =
      some (0x00#8, 0x00#8) := by decide

/-- T-A38. -/
theorem test_shr_ignores_y :
    seen (fun t => (t.getV 1, t.getV 2, t.getV 0xF)) (ran 0x8126 ((reset.setV 1 4).setV 2 0xFF)) =
      some (0x02#8, 0xFF#8, 0x00#8) := by decide

/-- T-A36. -/
theorem test_shr_to_VF_leaves_flag :
    seen (fun t => t.getV 0xF) (ran 0x8F06 (reset.setV 0xF 3)) =
      some 0x01#8 := by decide

/-- T-A27. -/
theorem test_subn :
    seen (fun t => (t.getV 0, t.getV 0xF)) (ran 0x8017 ((reset.setV 0 3).setV 1 5)) =
      some (0x02#8, 0x01#8) := by decide

/-- T-A30. -/
theorem test_subn_borrows :
    seen (fun t => (t.getV 0, t.getV 0xF)) (ran 0x8017 ((reset.setV 0 0xFF).setV 1 0)) =
      some (0x01#8, 0x00#8) := by decide

/-- T-A46. -/
theorem test_shl_ignores_y :
    seen (fun t => (t.getV 1, t.getV 2, t.getV 0xF)) (ran 0x812E ((reset.setV 1 0x21).setV 2 0xFF)) =
      some (0x42#8, 0xFF#8, 0x00#8) := by decide

/-- T-A39. -/
theorem test_shl_shifts_out :
    seen (fun t => (t.getV 1, t.getV 0xF)) (ran 0x810E (reset.setV 1 0x81)) =
      some (0x02#8, 0x01#8) := by decide

/-- T-C17. -/
theorem test_sneReg_skips :
    seen (fun t => t.pc.toNat) (ran 0x9120 ((reset.setV 1 7).setV 2 8)) =
      some 0x0204 := by decide

/-- T-C18. -/
theorem test_sneReg_keeps :
    seen (fun t => t.pc.toNat) (ran 0x9120 ((reset.setV 1 7).setV 2 7)) =
      some 0x0202 := by decide

/-- T-M1. -/
theorem test_ldI :
    seen (fun t => t.i.toNat) (ran 0xA2F0 (reset)) =
      some 0x02F0 := by decide

/-- T-C5. -/
theorem test_jpV0_is_not_reduced :
    seen (fun t => t.pc.toNat) (ran 0xBFFF (reset.setV 0 0xFF)) =
      some 0x10FE := by decide

/-- T-D2. -/
theorem test_drw_wraps_across_the_end :
    seen (fun t => (t.fb[31], t.fb[0], t.fb[1], t.getV 0xF)) (ran 0xD011 (((poke { reset with i := 0x0300 } 0x300 0xFF).setV 0 0x3E).setV 1 0x1F)) =
      some (0xC000000000000000, 0x3F, 0, 0x00#8) := by decide

/-- T-D12. -/
theorem test_drw_collides :
    seen (fun t => (t.fb[0], t.fb[1], t.getV 0xF)) (ran 0xD012 (poke (poke { reset with i := 0x0300, fb := togglePixel blankScreen 1 } 0x300 0xF0) 0x301 0x0F)) =
      some (0x0D, 0xF0, 0x01#8) := by decide

/-- T-K3. -/
theorem test_skp_low_nibble :
    seen (fun t => t.pc.toNat) (ran 0xE29E ((pressed [5]).setV 2 0x15)) =
      some 0x0204 := by decide

/-- T-K2. -/
theorem test_skp_other_key :
    seen (fun t => t.pc.toNat) (ran 0xE29E ((pressed [4]).setV 2 0x05)) =
      some 0x0202 := by decide

/-- T-K6. -/
theorem test_sknp_key_down :
    seen (fun t => t.pc.toNat) (ran 0xE2A1 ((pressed [5]).setV 2 0xF5)) =
      some 0x0202 := by decide

/-- T-K5. -/
theorem test_sknp_no_key :
    seen (fun t => t.pc.toNat) (ran 0xE2A1 (reset.setV 2 0x05)) =
      some 0x0204 := by decide

/-- T-T5. -/
theorem test_ldVxDt :
    seen (fun t => (t.getV 3, t.dt)) (ran 0xF307 ({ reset with dt := 0x3C })) =
      some (0x3C#8, 0x3C#8) := by decide

/-- T-K7. -/
theorem test_ldVxK_waits :
    seen (fun t => (t.pc.toNat, t.getV 2, t.reply)) (ran 0xF20A (reset.setV 2 0xEE)) =
      some (0x0200, 0xEE#8, .cycle .executed) := by decide

/-- T-K9. -/
theorem test_ldVxK_least_key :
    seen (fun t => (t.pc.toNat, t.getV 2)) (ran 0xF20A ((pressed [7, 3]).setV 2 0xEE)) =
      some (0x0202, 0x03#8) := by decide

/-- T-T6. -/
theorem test_ldDtVx :
    seen (fun t => t.dt) (ran 0xF315 (reset.setV 3 0x3C)) =
      some 0x3C#8 := by decide

/-- T-T7. -/
theorem test_ldStVx_sounds :
    seen (fun t => (t.st, t.soundActive)) (ran 0xF318 (reset.setV 3 0x02)) =
      some (0x02#8, true) := by decide

/-- T-T8. -/
theorem test_ldStVx_silent :
    seen (fun t => (t.st, t.soundActive)) (ran 0xF318 ({ reset with st := 0x05 })) =
      some (0x00#8, false) := by decide

/-- T-M3. -/
theorem test_addI_passes_memory :
    seen (fun t => (t.i.toNat, t.mode)) (ran 0xF21E ({ reset with i := 0x0FFF }.setV 2 1)) =
      some (0x1000, .running) := by decide

/-- T-M4. -/
theorem test_addI_wraps_without_flag :
    seen (fun t => (t.i.toNat, t.getV 0xF)) (ran 0xF21E (({ reset with i := 0xFFFF }.setV 2 1).setV 0xF 7)) =
      some (0x0000, 0x07#8) := by decide

/-- T-M9. -/
theorem test_ldF_low_nibble :
    seen (fun t => t.i.toNat) (ran 0xF429 (reset.setV 4 0x1A)) =
      some 0x0082 := by decide

/-- T-M12. -/
theorem test_ldB_at_the_top :
    seen (fun t => (t.readByte 0xFFD, t.readByte 0xFFE, t.readByte 0xFFF)) (ran 0xF033 ({ reset with i := 0x0FFD }.setV 0 0xFF)) =
      some (0x02#8, 0x05#8, 0x05#8) := by decide

/-- T-M13. -/
theorem test_ldB_out_of_range :
    seen (fun t => (t.reply, t.mem, t.pc.toNat)) (ran 0xF033 ({ reset with i := 0x0FFE }.setV 0 0xFF)) =
      some (.cycle (.fault .addressOutOfRange 0x0200 (some 0xF033)), [(0x200, 0xF0#8), (0x201, 0x33#8)], 0x0202) := by decide

/-- T-M14. -/
theorem test_stRegs :
    seen (fun t => (Memory.readSpan t.mem 0x300 4, t.i.toNat)) (ran 0xF255 ((({ reset with i := 0x0300 }.setV 0 0x10).setV 1 0x11).setV 2 0x12)) =
      some ([0x10, 0x11, 0x12, 0x00], 0x0300) := by decide

/-- T-M18. -/
theorem test_stRegs_out_of_range :
    seen (fun t => (t.reply, t.readByte 0xFF1)) (ran 0xFF55 ({ reset with i := 0x0FF1 }.setV 0 0x77)) =
      some (.cycle (.fault .addressOutOfRange 0x0200 (some 0xFF55)), 0x00#8) := by decide

/-- T-M24. -/
theorem test_ldRegs_reads_font :
    seen (fun t => (t.getV 0, t.getV 1, t.getV 2, t.getV 3)) (ran 0xF265 ({ reset with i := 0x0050 }.setV 3 0x44)) =
      some (0xF0#8, 0x90#8, 0x90#8, 0x44#8) := by decide

/-- T-M22. -/
theorem test_ldRegs_out_of_range :
    seen (fun t => (t.reply, t.getV 0)) (ran 0xF165 ({ reset with i := 0x0FFF }.setV 0 0x77)) =
      some (.cycle (.fault .addressOutOfRange 0x0200 (some 0xF165)), 0x77#8) := by decide

/-- T-A47, T-A50: the host's byte, masked. -/
theorem test_rnd_masks_the_host_byte :
    seen (fun t => t.getV 3) (exec (.rnd 0x3 0x0F) { reset with rndIn := some 0xA7 }) = some 0x07#8 := by decide

theorem test_rnd_byte_comes_with_the_step :
    seen (fun t => t.getV 0xF) (step { reset.withFetchWord 16 0xCF01 with hostEvents := [.step (some 0xFF)] }) =
      some 0x01#8 := by decide

/-! ### Fetch and events -/

/-- T-F2: an odd `PC`, big-endian. -/
theorem test_fetch_odd :
    seen (fun t => t.pc.toNat)
      (step (poke (poke { reset with pc := 0x0201 } 0x201 0x12) 0x202 0x34)) = some 0x0234 := by decide

/-- T-F3: the last word of memory. -/
theorem test_fetch_last_word :
    seen (fun t => (t.getV 0, t.pc.toNat)) (ran 0x6001 { reset with pc := 0x0FFE }) =
      some (0x01#8, 0x1000) := by decide

/-- T-F4, T-F5: past it. -/
theorem test_fetch_out_of_range :
    [0x0FFF#16, 0x1000#16].map (fun a => seen (fun t => (t.reply, t.pc, t.mode)) (step { reset with pc := a })) =
      [some (.cycle (.fault .addressOutOfRange 0x0FFF none), 0x0FFF, .halted),
       some (.cycle (.fault .addressOutOfRange 0x1000 none), 0x1000, .halted)] := by decide

/-- T-F8: nothing loaded, an unknown opcode. -/
theorem test_unknown_opcode :
    step reset = .next { reset with pc := 0x0202, loadable := false, reply := .cycle (.unknownOpcode 0x0200 0x0000) } :=
  rfl

/-- T-F6, T-F7: idle. -/
theorem test_idle :
    [Mode.paused, .halted].map (fun m => seen (fun t => (t.reply, t.pc.toNat, t.mode)) (step { reset with mode := m })) =
      [some (.cycle .idle, 0x0200, .paused), some (.cycle .idle, 0x0200, .halted)] := by decide

/-- T-T1, T-T3: a tick, in any mode, with the floor. -/
theorem test_tick :
    seen (fun t => (t.dt, t.st, t.mode)) (step { hosted [.tick] with dt := 0x02, st := 0x00, mode := .halted }) =
      some (0x01#8, 0x00#8, .halted) := by decide

/-- T-K13 and R209. -/
theorem test_setKey :
    [15, 16].map (fun k => seen (fun t => (t.key[15], t.reply)) (step (hosted [.setKey k true]))) =
      [some (true, .nothing), some (false, .refused)] := by decide

/-- 70_reset_and_hazards.md R261. -/
theorem test_mode_events :
    [Event.pause, .resume, .halt].map (fun e => [Mode.running, .paused, .halted].map (fun m =>
      seen (fun t => t.mode) (step { hosted [e] with mode := m }))) =
    [[some .paused, some .paused, some .halted], [some .running, some .running, some .halted],
     [some .halted, some .halted, some .halted]] := by decide

/-- R252, R253: bytes copied from 0x200; a second load is refused. -/
theorem test_load :
    seen (fun t => (t.readByte 0x1FF, t.readByte 0x200, t.readByte 0x201, t.reply, t.loadable))
      (step (hosted [.load [0x12, 0x34]])) = some (0x00#8, 0x12#8, 0x34#8, .loadOk, false) ∧
    seen (fun t => (t.reply, t.mem)) (step { hosted [.load [0x12]] with loadable := false }) =
      some (.refused, []) := by decide

/-- R250: `RESET` leaves Halted and gives the reset state. -/
theorem test_reset :
    seen (fun t => decide (t = reset))
      (step { hosted [.reset] with mode := .halted, i := 7, mem := [(0x300, 1)], loadable := false }) =
      some true := by decide

/-- A byte written as its reset contents leaves the list: equal memories are equal data. -/
theorem test_memory_canonical : Memory.write (Memory.write [] 0x50 0x00) 0x50 0xF0 = [] := by decide

/-! ### Witnesses: for every obligation with hypotheses, states and operands that meet them together -/

theorem witness_EncodeInvertsDecode :
    decodeWord 0x8126#16 = .ok (.shr 0x1 0x2) ∧ decodeWord 0xF0FF#16 = .error .unknownGroupF := by decide

theorem witness_DecoderFollowsOpcodeMap :
    OpcodeRow.selects (0x8006#16, 0xF00F#16) 0x8FF6#16 = true ∧ (0x8006#16, 0xF00F#16) ∈ opcodeTable ∧
    decodeWord 0x8FF6#16 = .ok (.shr 0xF 0xF) := by decide

theorem witness_OpcodeRowsAreDisjoint :
    (0xE09E#16, 0xF0FF#16) ∈ opcodeTable ∧ OpcodeRow.selects (0xE09E#16, 0xF0FF#16) 0xEF9E#16 = true := by decide

/-- One word of each class of R77. -/
theorem witness_UnknownWordClasses :
    [0x0000#16, 0x5121#16, 0x800F#16, 0x9001#16, 0xE000#16, 0xF0FF#16].all
      (fun w => match decodeWord w with | .ok _ => false | .error _ => true) = true := by decide

theorem nextEvent_reset : nextEvent reset = .step none := rfl

/-- At the last word of memory, with the host's random byte. -/
theorem witness_StepRunsDecodedInstruction :
    let s : State := { ({ reset with pc := 0x0FFE } : State).withFetchWord 16 0xCF01 with hostEvents := [.step (some 9)] }
    nextEvent s = .step (some 9) ∧ s.mode = .running ∧ InstrAt (.rnd 0xF 0x01) s s.pc.toNat :=
  ⟨rfl, rfl, by decide, [], rfl⟩

theorem witness_StepIsIdleUnlessRunning :
    [Mode.paused, .halted].all (fun m => decide (nextEvent { reset with mode := m } = .step none ∧ m ≠ .running)) = true := by
  decide

/-- The two first addresses with no word. -/
theorem witness_FetchOutOfRangeHalts :
    [0x0FFF#16, 0x1000#16].all (fun a => decide (nextEvent { reset with pc := a } = .step none ∧
      ({ reset with pc := a } : State).mode = .running ∧ a.toNat + 1 > 0xFFF)) = true := by decide

theorem witness_UnknownOpcodeIsSkipped :
    let s : State := { reset with pc := 0x0FFE }
    nextEvent s = .step none ∧ s.mode = .running ∧ s.pc.toNat + 1 ≤ 0xFFF ∧
      decode [s.readByte s.pc.toNat, s.readByte (s.pc.toNat + 1)] = .error .unknownGroup0 :=
  ⟨rfl, rfl, by decide, rfl⟩

/-- Each cause's condition at its boundary, and just inside it. -/
theorem witness_FaultsExactlyWhenCauseTableSays :
    FaultCondition .stackOverflow (.call 0x300) { reset with sp := 12 } ∧
    ¬ FaultCondition .stackOverflow (.call 0x300) { reset with sp := 11 } ∧
    FaultCondition .stackUnderflow .ret { reset with sp := 0 } ∧
    ¬ FaultCondition .stackUnderflow .ret { reset with sp := 1 } ∧
    FaultCondition .addressOutOfRange (.drw 0 1 1) { reset with i := 0x1000 } ∧
    ¬ FaultCondition .addressOutOfRange (.drw 0 1 1) { reset with i := 0x0FFF } ∧
    ¬ FaultCondition .addressOutOfRange (.drw 0 1 0) { reset with i := 0xFFFF } ∧
    FaultCondition .addressOutOfRange (.ldB 0) { reset with i := 0x0FFE } ∧
    ¬ FaultCondition .addressOutOfRange (.ldB 0) { reset with i := 0x0FFD } ∧
    FaultCondition .addressOutOfRange (.stRegs 0xF) { reset with i := 0x0FF1 } ∧
    ¬ FaultCondition .addressOutOfRange (.stRegs 0xF) { reset with i := 0x0FF0 } ∧
    FaultCondition .addressOutOfRange (.ldRegs 1) { reset with i := 0x0FFF } ∧
    ¬ FaultCondition .addressOutOfRange (.ldRegs 0) { reset with i := 0x0FFF } := by
  simp only [FaultCondition]; decide

/-- An instruction that faults. -/
theorem witness_FaultEntryChangesNothingElse :
    seen (fun t => t.reply) (exec .ret { reset with pc := 0x0302 }) =
      some (.cycle (.fault .stackUnderflow 0x0300 (some 0x00EE))) := by decide

/-- One instruction that runs and one that faults. -/
theorem witness_OnlyFaultsChangeMode :
    (∃ t, exec (.jp 0x300) reset = .next t) ∧ (∃ t, exec .ret reset = .next t) := ⟨⟨_, rfl⟩, ⟨_, rfl⟩⟩

theorem witness_HaltedIsTerminal :
    let s : State := { hosted [.tick, .step none, .resume, .load [0x12]] with mode := .halted }
    s.mode = .halted ∧ Event.reset ∉ s.hostEvents ∧ ∃ t, Host.Core.run Sys2Proof.core 5 s = .next t :=
  ⟨rfl, by decide, _, rfl⟩

theorem witness_RegistersWrittenAndFlagValues :
    writesFlag (.addReg 0 1) = true ∧ ∃ t, exec (.addReg 0 1) reset = .next t ∧ Executed t := ⟨rfl, _, rfl, rfl⟩

theorem witness_EachPartHasItsWriters : ∃ t, exec (.ldVxK 0) reset = .next t := exec_next _ _

theorem witness_CallPushesAdvancedPc :
    ({ reset with sp := 0 } : State).sp.val < 12 ∧ ({ reset with sp := 11 } : State).sp.val < 12 ∧
      ({ reset with sp := 12 } : State).sp.val = 12 := by decide

theorem witness_ReturnPopsTopIntoPc :
    ({ reset with sp := 1 } : State).sp.val = 0 + 1 ∧ ({ reset with sp := 12 } : State).sp.val = 11 + 1 ∧
      reset.sp.val = 0 := by decide

/-- S3 at both ends of the stack. -/
theorem witness_CallThenReturnResumes :
    [0, 11].all (fun d => decide (d < 12)) = true ∧
    (let s : State := poke (poke (reset.withFetchWord 16 0x2300) 0x300 0x00) 0x301 0xEE
     Ready (.call 0x300) s ∧ s.sp.val = 0 ∧ InstrAt .ret s 0x300) ∧
    (let s : State := poke (poke (({ reset with sp := 11 } : State).withFetchWord 16 0x2300) 0x300 0x00) 0x301 0xEE
     Ready (.call 0x300) s ∧ s.sp.val = 11 ∧ InstrAt .ret s 0x300) :=
  ⟨by decide, ⟨⟨rfl, rfl, by decide, [], rfl⟩, rfl, by decide, [], rfl⟩,
    ⟨rfl, rfl, by decide, [], rfl⟩, rfl, by decide, [], rfl⟩

/-- A destination that is not `VF`, for the result clauses of the flag writers. -/
theorem witness_flag_writers : (0x0#4 : Reg) ≠ 0xF#4 ∧ (0xE#4 : Reg) ≠ 0xF#4 := by decide

/-- The host's byte, and none. -/
theorem witness_RandomByteIsMasked :
    ({ reset with rndIn := some 0xA7 } : State).rndIn = some 0xA7#8 ∧ reset.rndIn = none := ⟨rfl, rfl⟩

theorem witness_StoreDecimalDigits :
    ({ reset with i := 0x0FFD } : State).i.toNat + 2 ≤ 0xFFF ∧
      ({ reset with i := 0x0FFE } : State).i.toNat + 2 > 0xFFF := by decide

/-- For the block store and the block load, with the most registers and with one. -/
theorem witness_RegisterBlocks :
    ({ reset with i := 0x0FF0 } : State).i.toNat + (0xF#4).toNat ≤ 0xFFF ∧
    ({ reset with i := 0x0FF1 } : State).i.toNat + (0xF#4).toNat > 0xFFF ∧
    ({ reset with i := 0x0FFF } : State).i.toNat + (0x0#4).toNat ≤ 0xFFF ∧
    ({ reset with i := 0x1000 } : State).i.toNat + (0x0#4).toNat > 0xFFF := by decide

theorem witness_BlockStoreThenLoadRestores :
    ({ reset with i := 0x0FF0 } : State).i.toNat + (0xF#4).toNat ≤ 0xFFF ∧
    ∃ t, exec (.stRegs 0xF) { reset with i := 0x0FF0 } = .next t ∧
      ∃ u : State, u.mem = t.mem ∧ u.i = t.i ∧ u.getV 0 ≠ t.getV 0 :=
  ⟨by decide, _, rfl, ⟨State.setV { reset with i := 0x0FF0 } 0 1, rfl, rfl, by decide⟩⟩

theorem witness_StoredCodeIsFetched :
    1 ≤ (0x1#4).toNat ∧ ({ reset with i := 0x0FFE } : State).i.toNat + (0x1#4).toNat ≤ 0xFFF ∧
    ∃ t, exec (.stRegs 0x1) { reset with i := 0x0FFE } = .next t ∧
      ∃ u : State, u.mem = t.mem ∧ u.pc = ({ reset with i := 0x0FFE } : State).i :=
  ⟨by decide, by decide, _, rfl, ⟨{ reset with pc := 0x0FFE }, rfl, rfl⟩⟩

/-- The largest sprite at its last base and one past it, and the empty sprite anywhere. -/
theorem witness_DrawTogglesSpritePixels :
    ({ reset with i := 0x0FF1 } : State).i.toNat + (0xF#4).toNat - 1 ≤ 0xFFF ∧
    (1 ≤ (0xF#4).toNat ∧ ({ reset with i := 0x0FF2 } : State).i.toNat + (0xF#4).toNat - 1 > 0xFFF) ∧
    (0x0#4).toNat = 0 ∧ SpriteHits { reset with i := 0x0050 } 0 1 1 3 ∧
    ¬ SpriteHits { reset with i := 0x0050 } 0 1 1 4 := by
  refine ⟨by decide, by decide, rfl, ⟨0, 3, by decide, by decide, by decide, by decide⟩, ?_⟩
  rintro ⟨row, col, hr, hc, hb, hj⟩
  have h0 : row = 0 := by simpa using hr
  subst h0
  have h4 : col = 4 := by
    have hx : (({ reset with i := 0x0050 } : State).getV 0).toNat = 0 := by decide
    have hy : (({ reset with i := 0x0050 } : State).getV 1).toNat = 0 := by decide
    rw [hx, hy] at hj
    omega
  subst h4
  revert hb
  decide

theorem witness_DrawTwiceRestoresScreen :
    let s : State := { reset with i := 0x0050 }
    s.i.toNat + (0x5#4).toNat - 1 ≤ 0xFFF ∧ (∀ j < 2048, pixel s.fb j = false) ∧
    (∃ row < (0x5#4).toNat, s.readByte (s.i.toNat + row) ≠ 0x00#8) ∧
    ∃ t, exec (.drw 0 1 5) s = .next t ∧ ∃ u : State, u.fb = t.fb ∧ u.mem = s.mem ∧ u.i = s.i ∧
      u.getV 0 = s.getV 0 ∧ u.getV 1 = s.getV 1 := by
  refine ⟨by decide, fun j _ => pixel_blank j, ⟨0, by decide, by decide⟩, ?_⟩
  obtain ⟨t, ht⟩ := exec_next (.drw 0 1 5) { reset with i := 0x0050 }
  exact ⟨t, ht, ⟨{ reset with i := 0x0050, fb := t.fb }, rfl, rfl, rfl, rfl, rfl⟩⟩

/-- The second clause of the same statement: a sprite of zero bytes. -/
theorem witness_DrawTwiceRestoresScreen_blank_sprite :
    let s : State := { reset with i := 0x0300 }
    s.i.toNat + (0x2#4).toNat - 1 ≤ 0xFFF ∧ ∀ row < (0x2#4).toNat, s.readByte (s.i.toNat + row) = 0x00#8 := by decide

/-- The least and the greatest key. -/
theorem witness_KeySkips :
    ((pressed [0]).getV 0).toNat % 16 = 0 ∧ ((reset.setV 0 0xFF).getV 0).toNat % 16 = 15 := by decide

theorem witness_KeyWaitTakesLeastKeyDown :
    ((pressed [0, 15]).key[0] = true ∧ ∀ (j : Nat) (_ : j < 0), (pressed [0, 15]).key[j] = false) ∧
    ((pressed [15]).key[15] = true ∧ ∀ (j : Nat) (_ : j < 15), (pressed [15]).key[j] = false) ∧
    ∀ (k : Nat) (_ : k < 16), reset.key[k] = false := by decide

theorem witness_KeyWaitStaysPut :
    Ready (.ldVxK 2) (reset.withFetchWord 16 0xF20A) ∧
      ∀ (k : Nat) (_ : k < 16), (reset.withFetchWord 16 0xF20A).key[k] = false :=
  ⟨⟨rfl, rfl, by decide, [], rfl⟩, by decide⟩

theorem witness_TickDecrementsNonzeroTimers : nextEvent (hosted [.tick]) = .tick := rfl

theorem witness_TicksFloorAtZero : (hosted [.tick, .tick, .pause]).hostEvents = List.replicate 2 .tick ++ [.pause] := rfl

theorem witness_SetKeyWritesOneFlag :
    nextEvent (hosted [.setKey 15 true]) = .setKey 15 true ∧ nextEvent (hosted [.setKey 16 true]) = .setKey 16 true :=
  ⟨rfl, rfl⟩

theorem witness_ModeEventsFollowTheirTable :
    nextEvent (hosted [.pause]) = .pause ∧ nextEvent (hosted [.resume]) = .resume ∧ nextEvent (hosted [.halt]) = .halt :=
  ⟨rfl, rfl, rfl⟩

theorem witness_ResetGivesTheTableOfResetValues : nextEvent { hosted [.reset] with mode := .halted } = .reset := rfl

/-- A ROM of the largest size and of one byte more (S9). -/
theorem witness_LoadCopiesRomOrRefusesWhole (b : List Byte) :
    nextEvent (hosted [.load b]) = .load b ∧ (hosted [.load b]).loadable = true ∧
    (List.replicate 3584 0xAA#8).length ≤ 3584 ∧ (List.replicate 3585 0xAA#8).length > 3584 :=
  ⟨rfl, rfl, by rw [List.length_replicate], by rw [List.length_replicate]; decide⟩

theorem witness_LoadIsRefusedOutsideItsPlace :
    nextEvent { hosted [.load [0x12]] with loadable := false } = .load [0x12] ∧
    (∃ t, nextEvent reset = .step none ∧ step reset = .next t) ∧
    (∃ t, step (hosted [.load [0x12]]) = .next t ∧ t.reply = .loadOk) := ⟨rfl, ⟨_, rfl, rfl⟩, _, rfl, rfl⟩

/-- The invariant is met by a state a run reaches, and by one at its bounds. -/
theorem witness_EveryStepKeepsInvariant :
    State.Inv { reset with pc := 0x10FE, stack := Vector.replicate 12 0x1000, mem := [(0x50, 0x00), (0xFFF, 0x01)] } ∧
    ∃ t, step { reset with pc := 0x10FE, stack := Vector.replicate 12 0x1000, mem := [(0x50, 0x00), (0xFFF, 0x01)] } =
      .next t :=
  ⟨⟨by decide, by decide, fun k hk => by simp⟩, _, rfl⟩

end Sys2Proof.Tests
end

section
/-! PROOFS. The step cycle (spec/40_step_cycle.md): a step of a machine that is not Running. -/

namespace Sys2Proof.Machine

/-- The reply and the inputs stand outside every other part of the state. -/
theorem keptBut_inputs_of_inputs_reply (s : State) (key : Vector Bool 16) (rnd : Option Byte) (es : List Event)
    (loadable : Bool) (r : Reply) :
    KeptBut [.inputs] s
      { s with key := key, rndIn := rnd, hostEvents := es, loadable := loadable, reply := r } :=
  keptBut_iff.mpr ⟨fun _ _ => rfl, fun _ => rfl, fun _ => rfl, fun _ => ⟨rfl, rfl⟩, fun _ => rfl, fun _ => rfl,
    fun _ => rfl, fun _ => rfl, fun _ _ => rfl, fun _ => rfl, fun h => absurd (List.mem_singleton_self _) h⟩

/-- The whole next state of an idle step, the event taken from the host's list included (R92). -/
theorem step_idle {s : State} {rnd : Option Byte} (he : nextEvent s = .step rnd) (hm : s.mode ≠ .running) :
    step s = .next { s with hostEvents := s.hostEvents.tail, loadable := false, reply := .cycle .idle } :=
  (step_of_event he).trans (stepEvent_idle rnd hm)

end Sys2Proof.Machine

namespace Sys2Proof.Proofs

open Sys2Proof.Machine

/-- Settles O8: the next state of an idle step differs from the state before it in the reply and the inputs only. -/
theorem stepIsIdleUnlessRunning : Obligations.StepIsIdleUnlessRunning := by
  intro s rnd he hm
  exact ⟨_, step_idle he hm, rfl, keptBut_inputs_of_inputs_reply s s.key s.rndIn s.hostEvents.tail false _, rfl, rfl, rfl⟩

end Sys2Proof.Proofs
end

section
/-! PROOFS. Call and return (spec/41_control_flow.md section 2): what an instruction that moves the stack and jumps keeps,
and what the entry of a fault keeps. -/

namespace Sys2Proof.Machine

@[simp] theorem addrOperand_toNat (nnn : Addr12) : (addrOperand nnn).toNat = nnn.toNat :=
  BitVec.toNat_setWidth_of_le (by decide)

/-- Fault entry (R224): the outcome and the mode are as said, and no part of the state but the mode changes. -/
theorem raiseFault_halts (c : Fault) (i : Instr) (s : State) :
    ∃ t, raiseFault c i s = .next t ∧ Faulted c i s t ∧ t.mode = .halted ∧ KeptBut [.mode] s t :=
  ⟨_, raiseFault_eq c i s, rfl, rfl, keptBut_iff.mpr (by simp)⟩

/-- Slots, depth, `PC` and reply stand outside every part of the state but the stack and `PC`. -/
theorem keptBut_pc_stack_of_jump (s : State) (stack : Vector Word 12) (sp : Fin 13) (w : Word) (r : Reply) :
    KeptBut [.pc, .stack] s (({ s with stack := stack, sp := sp }.setPc w).setReply r) :=
  keptBut_iff.mpr ⟨fun _ _ => rfl, fun _ => rfl, fun h => absurd (by simp) h, fun h => absurd (by simp) h, fun _ => rfl,
    fun _ => rfl, fun _ => rfl, fun _ => rfl, fun _ _ => rfl, fun _ => rfl, fun _ => ⟨rfl, rfl, rfl, rfl⟩⟩

end Sys2Proof.Machine

namespace Sys2Proof.Proofs

open Sys2Proof.Machine

/-- Settles O21: with room the advanced `PC` goes to slot `SP` and to no other (R111); full, the instruction is the entry
of its fault. -/
theorem callPushesAdvancedPc : Obligations.CallPushesAdvancedPc := by
  intro nnn s
  constructor
  case left =>
    intro hroom
    refine ⟨_, exec_call_room nnn hroom, rfl, addrOperand_toNat nnn, rfl, ?_, keptBut_pc_stack_of_jump s _ _ _ _⟩
    intro k hk
    simp [Vector.getElem_set, eq_comm]
  case right =>
    intro hfull
    rw [exec_call_full nnn hfull]
    exact raiseFault_halts .stackOverflow (.call nnn) s

/-- Settles O22: above depth 0 only the depth and `PC` move, so every slot keeps its value (R112); empty, the instruction
is the entry of its fault. -/
theorem returnPopsTopIntoPc : Obligations.ReturnPopsTopIntoPc := by
  intro s
  constructor
  case left =>
    intro d hd hlive
    exact ⟨_, exec_ret_live hd hlive, rfl, rfl, rfl, rfl, keptBut_pc_stack_of_jump s s.stack _ _ _⟩
  case right =>
    intro hempty
    rw [exec_ret_empty hempty]
    exact raiseFault_halts .stackUnderflow .ret s

end Sys2Proof.Proofs
end

section
/-! PROOFS. The display (spec/44_sprite_display.md): what clearing the screen does, and what a new screen leaves as it was. -/

namespace Sys2Proof.Machine

/-- The whole next state of a clear (R181). -/
theorem exec_cls (s : State) : exec .cls s = .next ((s.setFb blankScreen).setReply (.cycle .executed)) := rfl

/-- A new screen and a new reply stand outside every part of the state but the screen. -/
theorem keptBut_screen_of_setFb (s : State) (fb : Screen) (r : Reply) :
    KeptBut [.screen] s ((s.setFb fb).setReply r) :=
  keptBut_iff.mpr (by simp)

end Sys2Proof.Machine

namespace Sys2Proof.Proofs

open Sys2Proof.Machine

/-- Settles O40: the next state carries the blank screen, whatever the screen was, and differs from the state before it in
the screen and the reply only. -/
theorem clearScreenBlanksEveryPixel : Obligations.ClearScreenBlanksEveryPixel := by
  intro s
  exact ⟨_, exec_cls s, rfl, fun j _ => pixel_blank j, keptBut_screen_of_setFb s blankScreen _⟩

end Sys2Proof.Proofs
end

section
/-! PROOFS. Loading a ROM (spec/70_reset_and_hazards.md R252): the next state of a load that fits and of one that does not. -/

namespace Sys2Proof.Machine

/-- Byte `k` of a span stands `k` bytes after its first address. -/
theorem Memory.read_writeSpan_inside (m : Memory) (a k : Nat) (bs : List Byte) (h : k < bs.length) :
    Memory.read (Memory.writeSpan m a bs) (a + k) = bs[k] := by
  rw [Memory.read_writeSpan, dif_pos ⟨by omega, by omega⟩]
  simp

/-- The whole next state of a load that fits, the event taken from the host's list included. -/
theorem step_load_fits {s : State} {bytes : List Byte} (he : nextEvent s = .load bytes) (hl : s.loadable = true)
    (hfit : bytes.length ≤ 3584) :
    step s = .next { s with
      mem := Memory.writeSpan s.mem Config.loadBase bytes
      hostEvents := s.hostEvents.tail, loadable := false, reply := .loadOk } :=
  (step_of_event he).trans (congrArg _ (loadEvent_fits (s := takeEvent s) hl hfit))

/-- The whole next state of a load that is too large: only the event is taken from the host's list. -/
theorem step_load_tooLarge {s : State} {bytes : List Byte} (he : nextEvent s = .load bytes) (hl : s.loadable = true)
    (hbig : bytes.length > 3584) :
    step s = .next { s with hostEvents := s.hostEvents.tail, reply := .programTooLarge } :=
  (step_of_event he).trans (congrArg _ (loadEvent_tooLarge (s := takeEvent s) hl hbig))

/-- Memory, the reply and the inputs stand outside every other part of the state. -/
theorem keptBut_memory_inputs_of_mem_inputs_reply (s : State) (mem : Memory) (es : List Event) (loadable : Bool)
    (r : Reply) :
    KeptBut [.memory, .inputs] s { s with mem := mem, hostEvents := es, loadable := loadable, reply := r } :=
  have hmem : KeptBut [.memory] s (s.setMem mem) := keptBut_iff.mpr (by simp)
  (hmem.mono (by simp)).trans
    ((keptBut_inputs_of_inputs_reply (s.setMem mem) s.key s.rndIn es loadable r).mono (by simp))

end Sys2Proof.Machine

namespace Sys2Proof.Proofs

open Sys2Proof.Machine

/-- Settles O52: up to 3584 bytes memory is the old one with the span written at 0x200, so it reads the ROM inside the
span and as before outside; above, only the reply and the host's list differ, and the load stays possible. -/
theorem loadCopiesRomOrRefusesWhole : Obligations.LoadCopiesRomOrRefusesWhole := by
  intro s bytes he hl
  constructor
  case left =>
    intro hfit
    refine ⟨_, step_load_fits he hl hfit, rfl, ?inside, ?outside,
      keptBut_memory_inputs_of_mem_inputs_reply s _ _ false _, rfl⟩
    case inside => exact fun k hk => Memory.read_writeSpan_inside s.mem 0x200 k bytes hk
    case outside => exact fun a ha => Memory.read_writeSpan_outside ha
  case right =>
    intro hbig
    exact ⟨_, step_load_tooLarge he hl hbig, rfl,
      keptBut_inputs_of_inputs_reply s s.key s.rndIn s.hostEvents.tail s.loadable _, rfl, hl⟩

end Sys2Proof.Proofs
end

section
/-! PROOFS. Encoding and decoding (spec/30_encoding.md R74 to R82): each is the inverse of the other, a word is an
instruction's or in a class of R77, and the rows of the opcode map select exactly the words of their instructions. -/

namespace Sys2Proof

open Word

/-! ### A word from some of its fields and the literal digits of its pattern -/

theorem packNnn_of_group {w : Word} {g : Nibble} (hg : w.group = g) : packNnn g w.nnn = w :=
  hg ▸ packNnn_fields w

theorem packNnn_of_group_nnn {w : Word} {g : Nibble} {a : Addr12} (hg : w.group = g) (ha : w.nnn = a) :
    packNnn g a = w :=
  ha ▸ packNnn_of_group hg

theorem packXkk_of_group {w : Word} {g : Nibble} (hg : w.group = g) : packXkk g w.x w.kk = w :=
  hg ▸ packXkk_fields w

theorem packXkk_of_group_kk {w : Word} {g : Nibble} {k : Byte} (hg : w.group = g) (hk : w.kk = k) :
    packXkk g w.x k = w :=
  hk ▸ packXkk_of_group hg

theorem packXyn_of_group {w : Word} {g : Nibble} (hg : w.group = g) : packXyn g w.x w.y w.n = w :=
  hg ▸ packXyn_fields w

theorem packXyn_of_group_n {w : Word} {g n : Nibble} (hg : w.group = g) (hn : w.n = n) : packXyn g w.x w.y n = w :=
  hn ▸ packXyn_of_group hg

/-! ### Decoding what was encoded -/

/-- The case split is by the shape of the pattern: whole word, `nnn`, `x` and `kk`, `x` and `y` and `n`, and the two
groups with a sub-opcode of their own. -/
theorem decodeWord_encode (i : Instr) : decodeWord (encode i) = .ok i := by
  cases i
  case cls | ret => rfl
  case jp | call | ldI | jpV0 => simp [encode, decodeWord]
  case seImm | sneImm | ldImm | addImm | rnd | skp | sknp => simp [encode, decodeWord]
  case seReg | sneReg | drw => simp [encode, decodeWord]
  case ldReg | orReg | andReg | xorReg | addReg | sub | shr | subn | shl => simp [encode, decodeWord, decodeGroup8]
  case ldVxDt | ldVxK | ldDtVx | ldStVx | addI | ldF | ldB | stRegs | ldRegs => simp [encode, decodeWord, decodeGroupF]

/-! ### The two ways decoding ends -/

/-- The classes of R77, by the numbers of a word's fields. -/
def UnknownWord (w : Word) : Prop :=
  (w.toNat / 4096 = 0x0 ∧ w.toNat % 4096 ≠ 0x0E0 ∧ w.toNat % 4096 ≠ 0x0EE) ∨
  (w.toNat / 4096 = 0x5 ∧ w.toNat % 16 ≠ 0) ∨
  (w.toNat / 4096 = 0x8 ∧ w.toNat % 16 ∈ [0x8, 0x9, 0xA, 0xB, 0xC, 0xD, 0xF]) ∨
  (w.toNat / 4096 = 0x9 ∧ w.toNat % 16 ≠ 0) ∨
  (w.toNat / 4096 = 0xE ∧ w.toNat % 256 ∉ [0x9E, 0xA1]) ∨
  (w.toNat / 4096 = 0xF ∧ w.toNat % 256 ∉ [0x07, 0x0A, 0x15, 0x18, 0x1E, 0x29, 0x33, 0x55, 0x65])

/-- Decoding `w` gives the instruction whose encoding `w` is, or rejects `w`, which is then in a class of R77. -/
def DecodesOrUnknown (w : Word) (r : Except Reject Instr) : Prop :=
  (∃ i, r = .ok i ∧ encode i = w) ∨ ((∃ e, r = .error e) ∧ UnknownWord w)

theorem DecodesOrUnknown.ok {w : Word} {i : Instr} (h : encode i = w) : DecodesOrUnknown w (.ok i) := .inl ⟨i, rfl, h⟩

theorem DecodesOrUnknown.error {w : Word} {e : Reject} (h : UnknownWord w) : DecodesOrUnknown w (.error e) :=
  .inr ⟨⟨e, rfl⟩, h⟩

theorem decodeGroup8_decodesOrUnknown {w : Word} (hg : w.group = 0x8#4) :
    DecodesOrUnknown w (decodeGroup8 w.x w.y w.n) := by
  unfold decodeGroup8
  split
  case h_10 =>
    have hg' := congrArg BitVec.toNat hg
    simp only [← BitVec.toNat_inj, n_toNat, group_toNat] at *
    refine .error ?_
    simp [UnknownWord] at *
    omega
  all_goals
    rename_i hn
    exact .ok (packXyn_of_group_n hg hn)

theorem decodeGroupF_decodesOrUnknown {w : Word} (hg : w.group = 0xF#4) :
    DecodesOrUnknown w (decodeGroupF w.x w.kk) := by
  unfold decodeGroupF
  split
  case h_10 =>
    have hg' := congrArg BitVec.toNat hg
    simp only [← BitVec.toNat_inj, kk_toNat, group_toNat] at *
    refine .error ?_
    simp [UnknownWord] at *
    omega
  all_goals
    rename_i hk
    exact .ok (packXkk_of_group_kk hg hk)

/-- The last arm of the selection, which names no group, is group F. -/
theorem group_eq_F {g : Nibble} (h : g.toNat ∉ List.range 15) : g = 0xF#4 := by
  have := g.isLt
  rw [List.mem_range] at h
  exact BitVec.eq_of_toNat_eq (by simp; omega)

theorem decodeWord_decodesOrUnknown (w : Word) : DecodesOrUnknown w (decodeWord w) := by
  unfold decodeWord
  split
  case h_1 hg =>
    split
    case h_1 hn => exact .ok (packNnn_of_group_nnn hg hn)
    case h_2 hn => exact .ok (packNnn_of_group_nnn hg hn)
    case h_3 =>
      simp only [← BitVec.toNat_inj, nnn_toNat, group_toNat] at *
      exact .error (.inl (by simp at *; omega))
  case h_2 hg | h_3 hg | h_11 hg | h_12 hg => exact .ok (packNnn_of_group hg)
  case h_4 hg | h_5 hg | h_7 hg | h_8 hg | h_13 hg => exact .ok (packXkk_of_group hg)
  case h_14 hg => exact .ok (packXyn_of_group hg)
  case h_6 hg | h_10 hg =>
    split
    case isTrue hn => exact .ok (packXyn_of_group_n hg hn)
    case isFalse hn =>
      simp only [← BitVec.toNat_inj, n_toNat, group_toNat] at *
      exact .error (by simp [UnknownWord] at *; omega)
  case h_9 hg => exact decodeGroup8_decodesOrUnknown hg
  case h_15 hg =>
    split
    case h_1 hk => exact .ok (packXkk_of_group_kk hg hk)
    case h_2 hk => exact .ok (packXkk_of_group_kk hg hk)
    case h_3 =>
      simp only [← BitVec.toNat_inj, kk_toNat, group_toNat] at *
      exact .error (by simp [UnknownWord] at *; omega)
  case h_16 =>
    exact decodeGroupF_decodesOrUnknown (group_eq_F (by
      simp only [← BitVec.toNat_inj] at *
      simp at *
      omega))

/-- No word of an instruction is in a class of R77. -/
theorem not_unknownWord_encode (i : Instr) : ¬ UnknownWord (encode i) := by
  cases i
  case cls | ret => simp [UnknownWord, encode]
  case jp nnn | call nnn | ldI nnn | jpV0 nnn =>
    have := nnn.isLt
    simp [UnknownWord, encode, packNnn_toNat]
    omega
  case seImm x kk | sneImm x kk | ldImm x kk | addImm x kk | rnd x kk =>
    have := x.isLt; have := kk.isLt
    simp [UnknownWord, encode, packXkk_toNat]
    omega
  case skp x | sknp x | ldVxDt x | ldVxK x | ldDtVx x | ldStVx x | addI x | ldF x | ldB x | stRegs x | ldRegs x =>
    have := x.isLt
    simp [UnknownWord, encode, packXkk_toNat]
    omega
  case seReg x y | sneReg x y | ldReg x y | orReg x y | andReg x y | xorReg x y | addReg x y | sub x y | shr x y |
      subn x y | shl x y =>
    have := x.isLt; have := y.isLt
    simp [UnknownWord, encode, packXyn_toNat]
    omega
  case drw x y n =>
    have := x.isLt; have := y.isLt; have := n.isLt
    simp [UnknownWord, encode, packXyn_toNat]
    omega

theorem encode_of_decodeWord_ok {w : Word} {i : Instr} (h : decodeWord w = .ok i) : encode i = w := by
  rcases decodeWord_decodesOrUnknown w with ⟨j, hj, hw⟩ | ⟨⟨e, he⟩, -⟩
  · obtain rfl : j = i := Except.ok.inj (hj.symm.trans h)
    exact hw
  · cases he.symm.trans h

/-- A word is rejected exactly when it is in a class of R77. -/
theorem decodeWord_error_iff (w : Word) : (∃ e, decodeWord w = .error e) ↔ UnknownWord w := by
  rcases decodeWord_decodesOrUnknown w with ⟨i, hi, rfl⟩ | ⟨he, hu⟩
  · simp [hi, not_unknownWord_encode]
  · exact iff_of_true he hu

/-! ### The rows of the opcode map -/

/-- An instruction of each row, in the order of R75. -/
def rowInstrs : List Instr :=
  [.cls, .ret, .jp 0, .call 0, .seImm 0 0, .sneImm 0 0, .seReg 0 0, .ldImm 0 0, .addImm 0 0, .ldReg 0 0, .orReg 0 0,
   .andReg 0 0, .xorReg 0 0, .addReg 0 0, .sub 0 0, .shr 0 0, .subn 0 0, .shl 0 0, .sneReg 0 0, .ldI 0, .jpV0 0, .rnd 0 0,
   .drw 0 0 0, .skp 0, .sknp 0, .ldVxDt 0, .ldVxK 0, .ldDtVx 0, .ldStVx 0, .addI 0, .ldF 0, .ldB 0, .stRegs 0, .ldRegs 0]

theorem opcodeTable_eq_map : opcodeTable = rowInstrs.map opcodeRow := rfl

open Laws.RowMatch in
/-- The family RowMatch in one statement. -/
theorem selects_encode (i : Instr) : OpcodeRow.selects (opcodeRow i) (encode i) = true := by
  have h : Statement i := by
    cases i
    exacts [cls, ret, jp _, call _, seImm _ _, sneImm _ _, seReg _ _, ldImm _ _, addImm _ _, ldReg _ _, orReg _ _,
      andReg _ _, xorReg _ _, addReg _ _, sub _ _, shr _ _, subn _ _, shl _ _, sneReg _ _, ldI _, jpV0 _, rnd _ _,
      drw _ _ _, skp _, sknp _, ldVxDt _, ldVxK _, ldDtVx _, ldStVx _, addI _, ldF _, ldB _, stRegs _, ldRegs _]
  exact h.1

open Laws.RowMatch

theorem group_of_mask {w : Word} {g : Nibble} (h : w &&& 0xF000#16 = packNnn g 0#12) : w.group = g := by
  rw [← packNnn_fields w, packNnn_mask] at h
  simpa using congrArg group h

theorem packNnn_of_mask {w : Word} {g : Nibble} (h : w &&& 0xF000#16 = packNnn g 0#12) : packNnn g w.nnn = w :=
  packNnn_of_group (group_of_mask h)

theorem packXkk_of_mask_group {w : Word} {g : Nibble} (h : w &&& 0xF000#16 = packNnn g 0#12) :
    packXkk g w.x w.kk = w :=
  packXkk_of_group (group_of_mask h)

theorem packXkk_of_mask {w : Word} {g : Nibble} {k : Byte} (h : w &&& 0xF0FF#16 = packXkk g 0#4 k) :
    packXkk g w.x k = w := by
  rw [← packXkk_fields w, packXkk_mask] at h
  exact packXkk_of_group_kk (by simpa using congrArg group h) (by simpa using congrArg kk h)

theorem packXyn_of_mask {w : Word} {g n : Nibble} (h : w &&& 0xF00F#16 = packXyn g 0#4 0#4 n) :
    packXyn g w.x w.y n = w := by
  rw [← packXyn_fields w, packXyn_mask] at h
  exact packXyn_of_group_n (by simpa using congrArg group h) (by simpa using congrArg Word.n h)

theorem eq_of_mask_all {w m : Word} (h : w &&& 0xFFFF#16 = m) : m = w := by
  rw [← h, show (0xFFFF#16 : Word) = BitVec.allOnes 16 from rfl, BitVec.and_allOnes]

/-- A word that the row of an instruction selects is the word of an instruction of that row: the one with the word's own
fields as operands. -/
theorem exists_encode_of_mask {w : Word} : (i : Instr) → w &&& (opcodeRow i).2 = (opcodeRow i).1 →
    ∃ j, encode j = w ∧ opcodeRow j = opcodeRow i
  | .cls, h => ⟨.cls, eq_of_mask_all h, rfl⟩
  | .ret, h => ⟨.ret, eq_of_mask_all h, rfl⟩
  | .jp _, h => ⟨.jp w.nnn, packNnn_of_mask h, rfl⟩
  | .call _, h => ⟨.call w.nnn, packNnn_of_mask h, rfl⟩
  | .seImm _ _, h => ⟨.seImm w.x w.kk, packXkk_of_mask_group h, rfl⟩
  | .sneImm _ _, h => ⟨.sneImm w.x w.kk, packXkk_of_mask_group h, rfl⟩
  | .seReg _ _, h => ⟨.seReg w.x w.y, packXyn_of_mask h, rfl⟩
  | .ldImm _ _, h => ⟨.ldImm w.x w.kk, packXkk_of_mask_group h, rfl⟩
  | .addImm _ _, h => ⟨.addImm w.x w.kk, packXkk_of_mask_group h, rfl⟩
  | .ldReg _ _, h => ⟨.ldReg w.x w.y, packXyn_of_mask h, rfl⟩
  | .orReg _ _, h => ⟨.orReg w.x w.y, packXyn_of_mask h, rfl⟩
  | .andReg _ _, h => ⟨.andReg w.x w.y, packXyn_of_mask h, rfl⟩
  | .xorReg _ _, h => ⟨.xorReg w.x w.y, packXyn_of_mask h, rfl⟩
  | .addReg _ _, h => ⟨.addReg w.x w.y, packXyn_of_mask h, rfl⟩
  | .sub _ _, h => ⟨.sub w.x w.y, packXyn_of_mask h, rfl⟩
  | .shr _ _, h => ⟨.shr w.x w.y, packXyn_of_mask h, rfl⟩
  | .subn _ _, h => ⟨.subn w.x w.y, packXyn_of_mask h, rfl⟩
  | .shl _ _, h => ⟨.shl w.x w.y, packXyn_of_mask h, rfl⟩
  | .sneReg _ _, h => ⟨.sneReg w.x w.y, packXyn_of_mask h, rfl⟩
  | .ldI _, h => ⟨.ldI w.nnn, packNnn_of_mask h, rfl⟩
  | .jpV0 _, h => ⟨.jpV0 w.nnn, packNnn_of_mask h, rfl⟩
  | .rnd _ _, h => ⟨.rnd w.x w.kk, packXkk_of_mask_group h, rfl⟩
  | .drw _ _ _, h => ⟨.drw w.x w.y w.n, packXyn_of_group (group_of_mask h), rfl⟩
  | .skp _, h => ⟨.skp w.x, packXkk_of_mask h, rfl⟩
  | .sknp _, h => ⟨.sknp w.x, packXkk_of_mask h, rfl⟩
  | .ldVxDt _, h => ⟨.ldVxDt w.x, packXkk_of_mask h, rfl⟩
  | .ldVxK _, h => ⟨.ldVxK w.x, packXkk_of_mask h, rfl⟩
  | .ldDtVx _, h => ⟨.ldDtVx w.x, packXkk_of_mask h, rfl⟩
  | .ldStVx _, h => ⟨.ldStVx w.x, packXkk_of_mask h, rfl⟩
  | .addI _, h => ⟨.addI w.x, packXkk_of_mask h, rfl⟩
  | .ldF _, h => ⟨.ldF w.x, packXkk_of_mask h, rfl⟩
  | .ldB _, h => ⟨.ldB w.x, packXkk_of_mask h, rfl⟩
  | .stRegs _, h => ⟨.stRegs w.x, packXkk_of_mask h, rfl⟩
  | .ldRegs _, h => ⟨.ldRegs w.x, packXkk_of_mask h, rfl⟩

/-- A row of the map selects exactly the words of the instructions of that row. -/
theorem exists_encode_of_selects {r : OpcodeRow} {w : Word} (hr : r ∈ opcodeTable)
    (h : OpcodeRow.selects r w = true) : ∃ i, encode i = w ∧ opcodeRow i = r := by
  obtain ⟨i, -, rfl⟩ := List.mem_map.mp (opcodeTable_eq_map ▸ hr)
  exact exists_encode_of_mask i (eq_of_beq h)

/-- Two rows that select one word are the row of the one instruction it encodes. -/
theorem row_eq_of_selects {r r' : OpcodeRow} {w : Word} (hr : r ∈ opcodeTable) (hr' : r' ∈ opcodeTable)
    (h : OpcodeRow.selects r w = true) (h' : OpcodeRow.selects r' w = true) : r = r' := by
  obtain ⟨i, hi, rfl⟩ := exists_encode_of_selects hr h
  obtain ⟨j, hj, rfl⟩ := exists_encode_of_selects hr' h'
  have hij : i = j := Except.ok.inj (by rw [← decodeWord_encode i, ← decodeWord_encode j, hi, hj])
  rw [hij]

end Sys2Proof

namespace Sys2Proof.Proofs

/-- Settles O2: the bytes of a word decode as the word does, and the word of an instruction decodes to it. -/
theorem decodeInvertsEncode : Obligations.DecodeInvertsEncode := by
  intro i rest
  rw [encodeBytes, decode_toBytes, decodeWord_encode]
  rfl

/-- Settles O3: the two ways decoding ends leave an accepted word only the instruction whose encoding it is. -/
theorem encodeInvertsDecode : Obligations.EncodeInvertsDecode :=
  fun _ _ => encode_of_decodeWord_ok

/-- Settles O4: an accepted word is the encoding of its instruction, which that instruction's row selects; a selected word
is the encoding of an instruction of the row, which decodes. -/
theorem decoderFollowsOpcodeMap : Obligations.DecoderFollowsOpcodeMap := by
  intro w
  have own_row : ∀ i, decodeWord w = .ok i → OpcodeRow.selects (opcodeRow i) w = true :=
    fun i hi => encode_of_decodeWord_ok hi ▸ selects_encode i
  refine ⟨⟨?accepted, ?selected⟩, own_row⟩
  case accepted =>
    rintro ⟨i, hi⟩
    exact ⟨opcodeRow i, Laws.RowMatch.opcodeRow_mem i, own_row i hi⟩
  case selected =>
    rintro ⟨r, hr, hs⟩
    obtain ⟨i, rfl, -⟩ := exists_encode_of_selects hr hs
    exact ⟨i, decodeWord_encode i⟩

/-- Settles O5: a word that two rows select encodes one instruction, whose row both are. -/
theorem opcodeRowsAreDisjoint : Obligations.OpcodeRowsAreDisjoint :=
  ⟨rfl, fun _ _ hr _ hr' => row_eq_of_selects hr hr'⟩

/-- Settles O6: every word is an instruction's or in one of the six classes, and never both. -/
theorem unknownWordClasses : Obligations.UnknownWordClasses := decodeWord_error_iff

end Sys2Proof.Proofs
end

section
/-! PROOFS. How an instruction ends and what it may write (spec/60_exceptions.md R222, R224; spec/10_state.md R20 to R35):
the frame of every instruction, on the side where it runs and on the side where it faults. -/

namespace Sys2Proof.Machine

/-! ### The two ways `exec` ends, read off the next state -/

/-- The state a fault is entered into (R224). -/
def faultState (c : Fault) (i : Instr) (s : State) : State :=
  (s.setMode .halted).setReply (.cycle (.fault c (s.pc - 2#16) (some (encode i))))

/-- An instruction runs and keeps the mode, where no fault condition holds, or enters the fault whose condition holds. -/
theorem exec_next_cases {i : Instr} {s t : State} (h : exec i s = .next t) :
    (Executed t ∧ t.mode = s.mode ∧ ∀ c, ¬ FaultCondition c i s) ∨
    ∃ c, FaultCondition c i s ∧ t = faultState c i s := by
  rcases exec_cases i s with ⟨⟨u, hu, hm⟩, hnf⟩ | ⟨c, hc, he⟩
  · obtain rfl := retire_next_iff.mp (hu.symm.trans h)
    exact .inl ⟨rfl, hm, hnf⟩
  · exact .inr ⟨c, hc, raiseFault_next_iff.mp (he.symm.trans h)⟩

theorem faultState_faulted (c : Fault) (i : Instr) (s : State) : Faulted c i s (faultState c i s) := rfl

theorem not_executed_faultState (c : Fault) (i : Instr) (s : State) : ¬ Executed (faultState c i s) := by
  simp [Executed, faultState]

theorem faulted_faultState_iff {c d : Fault} {i : Instr} {s : State} : Faulted d i s (faultState c i s) ↔ d = c := by
  simp [Faulted, faultState, eq_comm]

theorem not_faulted_of_executed {c : Fault} {i : Instr} {s t : State} (h : Executed t) : ¬ Faulted c i s t := by
  intro hf
  cases h.symm.trans hf

/-- Fault entry changes the mode and the reply only. -/
theorem keptBut_faultState (c : Fault) (i : Instr) (s : State) : KeptBut [.mode] s (faultState c i s) :=
  keptBut_iff.mpr (by simp [faultState])

/-- Where an instruction ran, no fault condition held. -/
theorem noFault_of_executed {i : Instr} {s t : State} (h : exec i s = .next t) (he : Executed t) :
    ∀ c, ¬ FaultCondition c i s := by
  rcases exec_next_cases h with ⟨-, -, hnf⟩ | ⟨c, -, rfl⟩
  · exact hnf
  · exact absurd he (not_executed_faultState c i s)

/-- An instruction that can fault may write the mode. -/
theorem mode_mem_mayWrite {c : Fault} {i : Instr} {s : State} (h : FaultCondition c i s) : .mode ∈ mayWrite i := by
  cases i
  case ret | call | drw | ldB | stRegs | ldRegs => simp [mayWrite]
  all_goals cases c <;> exact h.elim

/-! ### The next state of the instructions that end in more than one way -/

theorem exec_call_executed {nnn : Addr12} {s t : State} (h : exec (.call nnn) s = .next t) (he : Executed t) :
    ∃ hroom : s.sp.val < 12, t = ({ s with
      stack := s.stack.set s.sp.val s.pc hroom
      sp := ⟨s.sp.val + 1, by omega⟩ }.setPc (addrOperand nnn)).setReply (.cycle .executed) := by
  have hnf : ¬ s.sp.val = 12 := noFault_of_executed h he .stackOverflow
  have hroom : s.sp.val < 12 := by omega
  exact ⟨hroom, retire_next_iff.mp ((exec_call_room nnn hroom).symm.trans h)⟩

theorem exec_ret_executed {s t : State} (h : exec .ret s = .next t) (he : Executed t) :
    ∃ (d : Nat) (hd : d < 12), s.sp.val = d + 1 ∧
      t = ({ s with sp := ⟨d, by omega⟩ }.setPc s.stack[d]).setReply (.cycle .executed) := by
  have hnf : ¬ s.sp.val = 0 := noFault_of_executed h he .stackUnderflow
  obtain ⟨d, hd⟩ := Nat.exists_eq_succ_of_ne_zero hnf
  have hd12 : d < 12 := by omega
  exact ⟨d, hd12, hd, retire_next_iff.mp ((exec_ret_live hd12 hd).symm.trans h)⟩

theorem exec_drw_executed {x y : Reg} {n : Nibble} {s t : State} (h : exec (.drw x y n) s = .next t) (he : Executed t) :
    t = ((s.setFb (drawnScreen s x y n).1).setV vf (flagByte (drawnScreen s x y n).2)).setReply (.cycle .executed) := by
  have hnf : ¬ (1 ≤ n.toNat ∧ s.i.toNat + n.toNat - 1 > 0xFFF) := noFault_of_executed h he .addressOutOfRange
  exact retire_next_iff.mp ((exec_drw_fits x y n (by omega)).symm.trans h)

theorem exec_ldB_executed {x : Reg} {s t : State} (h : exec (.ldB x) s = .next t) (he : Executed t) :
    s.i.toNat + 2 ≤ 0xFFF ∧
      t = (s.setMem (Memory.writeSpan s.mem s.i.toNat (bcdDigits (s.getV x)))).setReply (.cycle .executed) := by
  have hfit : s.i.toNat + 2 ≤ 0xFFF := Nat.not_lt.mp (noFault_of_executed h he .addressOutOfRange)
  exact ⟨hfit, retire_next_iff.mp ((exec_ldB_fits x hfit).symm.trans h)⟩

theorem exec_stRegs_executed {x : Reg} {s t : State} (h : exec (.stRegs x) s = .next t) (he : Executed t) :
    s.i.toNat + x.toNat ≤ 0xFFF ∧
      t = (s.setMem (Memory.writeSpan s.mem s.i.toNat (regBlock s x))).setReply (.cycle .executed) := by
  have hfit : s.i.toNat + x.toNat ≤ 0xFFF := Nat.not_lt.mp (noFault_of_executed h he .addressOutOfRange)
  exact ⟨hfit, retire_next_iff.mp ((exec_stRegs_fits x hfit).symm.trans h)⟩

theorem exec_ldRegs_executed {x : Reg} {s t : State} (h : exec (.ldRegs x) s = .next t) (he : Executed t) :
    s.i.toNat + x.toNat ≤ 0xFFF ∧ t = (s.setRegs (loadedRegs s x s.i.toNat)).setReply (.cycle .executed) := by
  have hfit : s.i.toNat + x.toNat ≤ 0xFFF := Nat.not_lt.mp (noFault_of_executed h he .addressOutOfRange)
  exact ⟨hfit, retire_next_iff.mp ((exec_ldRegs_fits x hfit).symm.trans h)⟩

theorem exec_ldVxK_some {x : Reg} {s : State} {k : Byte} (h : leastKeyDown s = some k) :
    exec (.ldVxK x) s = retire (s.setV x k) := by
  simp only [exec, execLdVxK, h]

theorem exec_ldVxK_none {x : Reg} {s : State} (h : leastKeyDown s = none) : exec (.ldVxK x) s = retire s.rewind := by
  simp only [exec, execLdVxK, h]

/-- The key wait takes a key or steps `PC` back (R203). -/
theorem exec_ldVxK_next {x : Reg} {s t : State} (h : exec (.ldVxK x) s = .next t) :
    (∃ k, t = (s.setV x k).setReply (.cycle .executed)) ∨ t = s.rewind.setReply (.cycle .executed) := by
  cases hk : leastKeyDown s with
  | some k => exact .inl ⟨k, retire_next_iff.mp ((exec_ldVxK_some hk).symm.trans h)⟩
  | none => exact .inr (retire_next_iff.mp ((exec_ldVxK_none hk).symm.trans h))

/-! ### Frames -/

/-- An instruction that ran wrote only parts it may write, and not the mode. -/
theorem keptBut_of_executed {i : Instr} {s t : State} (h : exec i s = .next t) (he : Executed t) :
    KeptBut ((mayWrite i).erase .mode) s t := by
  cases i
  case call nnn =>
    obtain ⟨_, rfl⟩ := exec_call_executed h he
    exact keptBut_pc_stack_of_jump s _ _ _ _
  case ret =>
    obtain ⟨d, hd, -, rfl⟩ := exec_ret_executed h he
    exact keptBut_pc_stack_of_jump s s.stack _ _ _
  case drw x y n =>
    obtain rfl := exec_drw_executed h he
    exact keptBut_iff.mpr (by simp [mayWrite])
  case ldB x =>
    obtain ⟨-, rfl⟩ := exec_ldB_executed h he
    exact keptBut_iff.mpr (by simp [mayWrite])
  case stRegs x =>
    obtain ⟨-, rfl⟩ := exec_stRegs_executed h he
    exact keptBut_iff.mpr (by simp [mayWrite])
  case ldRegs x =>
    obtain ⟨-, rfl⟩ := exec_ldRegs_executed h he
    exact keptBut_iff.mpr (by simp [mayWrite])
  case ldVxK x =>
    rcases exec_ldVxK_next h with ⟨k, rfl⟩ | rfl
    · exact keptBut_iff.mpr (by simp [mayWrite])
    · exact keptBut_iff.mpr (by simp [mayWrite, State.rewind])
  all_goals
    obtain rfl := retire_next_iff.mp h
    exact keptBut_iff.mpr (by simp [mayWrite, writeAlu, skipIf_eq])

theorem keptBut_mayWrite {i : Instr} {s t : State} (h : exec i s = .next t) : KeptBut (mayWrite i) s t := by
  rcases exec_next_cases h with ⟨he, -, -⟩ | ⟨c, hc, rfl⟩
  · exact (keptBut_of_executed h he).mono fun _ => List.mem_of_mem_erase
  · exact (keptBut_faultState c i s).mono (by simpa using mode_mem_mayWrite hc)

/-! ### Registers -/

/-- The registers an instruction may write: its destinations and, for the flag writers, `VF`. -/
def regsWritten (i : Instr) : List Reg := destRegs i ++ if writesFlag i then [0xF#4] else []

theorem regsKeptBut_of_keptBut {ps : List Part} {s t : State} (ds : List Reg) (h : KeptBut ps s t) (hr : .regs ∉ ps) :
    RegsKeptBut ds s t := fun r _ => h .regs hr r

/-- A register outside the block of `Fx65` lies above `V[x]`. -/
theorem lt_of_not_mem_destRegs_ldRegs {x r : Reg} (h : r ∉ destRegs (.ldRegs x)) : x.toNat < r.toNat := by
  by_contra hle
  exact h (List.mem_map.mpr ⟨r.toNat, List.mem_range.mpr (by omega), BitVec.ofNat_toNat 4 r ▸ by simp⟩)

theorem regsKeptBut_of_executed {i : Instr} {s t : State} (h : exec i s = .next t) (he : Executed t) :
    RegsKeptBut (regsWritten i) s t := by
  have hk := keptBut_of_executed h he
  cases i
  case addReg | sub | shr | subn | shl =>
    obtain rfl := retire_next_iff.mp h
    intro r hr
    simp [regsWritten, destRegs, writesFlag] at hr
    simp [writeAlu_getV, hr]
  case ldImm | addImm | ldReg | orReg | andReg | xorReg | rnd | ldVxDt =>
    obtain rfl := retire_next_iff.mp h
    intro r hr
    simp [regsWritten, destRegs, writesFlag] at hr
    simp [State.setV_getV, hr]
  case ldVxK x =>
    intro r hr
    simp [regsWritten, destRegs, writesFlag] at hr
    rcases exec_ldVxK_next h with ⟨k, rfl⟩ | rfl
    · simp [State.setV_getV, hr]
    · simp [State.rewind]
  case drw x y n =>
    obtain rfl := exec_drw_executed h he
    intro r hr
    simp [regsWritten, destRegs, writesFlag] at hr
    simp [State.setV_getV, hr]
  case ldRegs x =>
    obtain ⟨-, rfl⟩ := exec_ldRegs_executed h he
    intro r hr
    have hlt := lt_of_not_mem_destRegs_ldRegs (fun hm => hr (List.mem_append_left _ hm))
    simp [loadedRegs_getElem, hlt]
  all_goals exact regsKeptBut_of_keptBut _ hk (by simp [mayWrite])

theorem regsKeptBut_regsWritten {i : Instr} {s t : State} (h : exec i s = .next t) : RegsKeptBut (regsWritten i) s t := by
  rcases exec_next_cases h with ⟨he, -, -⟩ | ⟨c, -, rfl⟩
  · exact regsKeptBut_of_executed h he
  · exact regsKeptBut_of_keptBut _ (keptBut_faultState c i s) (by simp)

/-- The six flag writers end with a flag byte in `VF`. -/
theorem flag_of_executed {i : Instr} {s t : State} (h : exec i s = .next t) (he : Executed t) (hw : writesFlag i = true) :
    ∃ f, t.getV vf = flagByte f := by
  cases i
  case addReg | sub | shr | subn | shl =>
    obtain rfl := retire_next_iff.mp h
    exact ⟨_, State.setV_getV_same _ _ _⟩
  case drw x y n =>
    obtain rfl := exec_drw_executed h he
    exact ⟨_, State.setV_getV_same _ _ _⟩
  all_goals cases hw

end Sys2Proof.Machine

namespace Sys2Proof.Proofs

open Sys2Proof.Machine

/-- Settles O13: an instruction that ran had no condition hold, and one that faulted had its own, which excludes the
others. -/
theorem faultsExactlyWhenCauseTableSays : Obligations.FaultsExactlyWhenCauseTableSays := by
  intro i s
  obtain ⟨t, h⟩ := exec_next i s
  refine ⟨t, h, ?_⟩
  rcases exec_next_cases h with ⟨he, -, hnf⟩ | ⟨c, hc, rfl⟩
  · exact ⟨fun d => iff_of_false (not_faulted_of_executed he) (hnf d), iff_of_true he hnf⟩
  · refine ⟨fun d => faulted_faultState_iff.trans ⟨fun hd => hd ▸ hc, fun hd => faultCondition_unique hd hc⟩, ?_⟩
    exact iff_of_false (not_executed_faultState c i s) (fun hnf => hnf c hc)

/-- Settles O14: the reply tells that the next state is the one fault entry gives. -/
theorem faultEntryChangesNothingElse : Obligations.FaultEntryChangesNothingElse := by
  intro i s t c a w h hr
  rcases exec_next_cases h with ⟨he, -, -⟩ | ⟨d, -, rfl⟩
  · cases he.symm.trans hr
  · cases hr
    exact ⟨rfl, BitVec.sub_add_cancel s.pc 2#16, rfl⟩

/-- Settles O15: the two ways `exec` ends. -/
theorem onlyFaultsChangeMode : Obligations.OnlyFaultsChangeMode := by
  intro i s t h
  rcases exec_next_cases h with ⟨he, hm, -⟩ | ⟨c, -, rfl⟩
  · exact .inl ⟨he, hm⟩
  · exact .inr ⟨rfl, c, faultState_faulted c i s⟩

/-- Settles O18: an instruction that runs keeps what it may not write, and one that faults changes the mode only, which it
may write. -/
theorem eachPartHasItsWriters : Obligations.EachPartHasItsWriters := fun _ _ _ => keptBut_mayWrite

/-- Settles O17: the registers outside `regsWritten` are kept by every instruction, and the last write of a flag writer is
a flag byte. -/
theorem registersWrittenAndFlagValues : Obligations.RegistersWrittenAndFlagValues := by
  intro i s t h
  refine ⟨regsKeptBut_regsWritten h, fun hw he => ?_⟩
  obtain ⟨f, hf⟩ := flag_of_executed h he hw
  exact hf ▸ flagByte_cases f

end Sys2Proof.Proofs
end

section
/-! PROOFS. The step cycle of a running machine (spec/40_step_cycle.md R92 to R99, R108): the state an instruction is
executed on, the ways a `STEP` ends, and runs. -/

namespace Sys2Proof.Machine

/-! ### The ways a `STEP` ends -/

/-- The state an instruction is executed on: the step accepted and `PC` advanced (R94; logs 4, 5). -/
def fetched (rnd : Option Byte) (s : State) : State := { s with rndIn := rnd, loadable := false, pc := s.pc + 2#16 }

/-- A `STEP` is idle, or takes the fetch fault, or executes an instruction, or skips an unknown opcode (R108). -/
theorem stepEvent_cases (rnd : Option Byte) (s : State) :
    (s.mode ≠ .running ∧ stepEvent rnd s = .next { s with loadable := false, reply := .cycle .idle }) ∨
    (0xFFF < s.pc.toNat + 1 ∧ stepEvent rnd s = raiseFetchFault (acceptStep rnd s)) ∨
    (s.pc.toNat + 1 ≤ 0xFFF ∧ ∃ i, stepEvent rnd s = exec i (fetched rnd s)) ∨
    (s.pc.toNat + 1 ≤ 0xFFF ∧ ∃ w, stepEvent rnd s =
      .next ((fetched rnd s).setReply (.cycle (.unknownOpcode s.pc w)))) := by
  by_cases hm : s.mode = .running
  · rw [stepEvent_running rnd hm]
    by_cases hpc : s.pc.toNat + 1 ≤ 0xFFF
    · cases hd : decodeWord (fetchWord (acceptStep rnd s)) with
      | ok i => exact .inr (.inr (.inl ⟨hpc, i, fetchDecodeExecute_ok hpc hd⟩))
      | error e => exact .inr (.inr (.inr ⟨hpc, _, fetchDecodeExecute_unknown hpc hd⟩))
    · exact .inr (.inl ⟨by omega, fetchDecodeExecute_out (by simp [acceptStep]; omega)⟩)
  · exact .inl ⟨hm, stepEvent_idle rnd hm⟩

/-- The whole step of a running machine whose word at `PC` is an instruction (R93 to R96). -/
theorem step_instr {s : State} {i : Instr} {rnd : Option Byte} (he : nextEvent s = .step rnd) (hm : s.mode = .running)
    (hi : InstrAt i s s.pc.toNat) : step s = exec i (fetched rnd (takeEvent s)) := by
  have hd : decodeWord (fetchWord (acceptStep rnd (takeEvent s))) = .ok i := decodeWord_fetchWord (s := s) hi
  rw [step_of_event he]
  exact (stepEvent_running (s := takeEvent s) rnd hm).trans (fetchDecodeExecute_ok hi.1 hd)

theorem step_ready {s : State} {i : Instr} (h : Ready i s) : step s = exec i (fetched none (takeEvent s)) :=
  step_instr (nextEvent_nil h.2.1) h.1 h.2.2

theorem step_fetch_out {s : State} {rnd : Option Byte} (he : nextEvent s = .step rnd) (hm : s.mode = .running)
    (hpc : s.pc.toNat + 1 > 0xFFF) : step s = raiseFetchFault (acceptStep rnd (takeEvent s)) := by
  rw [step_of_event he]
  exact (stepEvent_running (s := takeEvent s) rnd hm).trans (fetchDecodeExecute_out hpc)

theorem step_unknown {s : State} {e : Reject} {rnd : Option Byte} (he : nextEvent s = .step rnd)
    (hm : s.mode = .running) (hpc : s.pc.toNat + 1 ≤ 0xFFF) (hd : decodeWord (fetchWord s) = .error e) :
    step s = .next ((fetched rnd (takeEvent s)).setReply (.cycle (.unknownOpcode s.pc (fetchWord s)))) := by
  rw [step_of_event he]
  exact (stepEvent_running (s := takeEvent s) rnd hm).trans
    (fetchDecodeExecute_unknown (s := acceptStep rnd (takeEvent s)) hpc hd)

/-- The bytes at `PC` are rejected as the fetched word is. -/
theorem decodeWord_fetchWord_error {s : State} {e : Reject}
    (h : decode [s.readByte s.pc.toNat, s.readByte (s.pc.toNat + 1)] = .error e) :
    decodeWord (fetchWord s) = .error e := by
  rw [decode] at h
  unfold fetchWord
  cases hw : decodeWord (Word.ofBytes (s.readByte s.pc.toNat) (s.readByte (s.pc.toNat + 1))) with
  | ok i => rw [hw] at h; cases h
  | error e' => rw [hw] at h; cases h; rfl

/-- Mode, reply and inputs stand outside every other part of the state. -/
theorem keptBut_mode_inputs (s : State) (m : Mode) (key : Vector Bool 16) (rnd : Option Byte) (es : List Event)
    (loadable : Bool) (r : Reply) :
    KeptBut [.mode, .inputs] s
      { s with mode := m, key := key, rndIn := rnd, hostEvents := es, loadable := loadable, reply := r } :=
  have hmode : KeptBut [.mode] s (s.setMode m) := keptBut_iff.mpr (by simp)
  (hmode.mono (by simp)).trans ((keptBut_inputs_of_inputs_reply (s.setMode m) key rnd es loadable r).mono (by simp))

/-- `PC`, reply and inputs stand outside every other part of the state. -/
theorem keptBut_pc_inputs (s : State) (w : Word) (key : Vector Bool 16) (rnd : Option Byte) (es : List Event)
    (loadable : Bool) (r : Reply) :
    KeptBut [.pc, .inputs] s
      { s with pc := w, key := key, rndIn := rnd, hostEvents := es, loadable := loadable, reply := r } :=
  have hpc : KeptBut [.pc] s (s.setPc w) := keptBut_iff.mpr (by simp)
  (hpc.mono (by simp)).trans ((keptBut_inputs_of_inputs_reply (s.setPc w) key rnd es loadable r).mono (by simp))

/-- An advanced `PC` is its number and 2 where a word was fetched: nothing wraps. -/
theorem pc_add_two_toNat {s : State} (h : s.pc.toNat + 1 ≤ 0xFFF) : (s.pc + 2#16).toNat = s.pc.toNat + 2 := by
  rw [BitVec.toNat_add]
  simp
  omega

/-! ### Every event answers a next state -/

theorem handle_next (e : Event) (s : State) : ∃ t, handle e s = .next t := by
  cases e with
  | step rnd =>
    rcases stepEvent_cases rnd s with ⟨-, h⟩ | ⟨-, h⟩ | ⟨-, i, h⟩ | ⟨-, w, h⟩
    · exact ⟨_, h⟩
    · exact ⟨_, h⟩
    · obtain ⟨t, ht⟩ := exec_next i (fetched rnd s)
      exact ⟨t, h.trans ht⟩
    · exact ⟨_, h⟩
  | tick | setKey | pause | resume | halt | load | reset => exact ⟨_, rfl⟩

theorem step_next (s : State) : ∃ t, step s = .next t := handle_next _ _

/-- A run of one step more, from its answer: the first step's state and the run from there. -/
theorem run_succ_cases (k : Nat) (s : State) :
    ∃ t, step s = .next t ∧ Host.Core.run Sys2Proof.core (k + 1) s = Host.Core.run Sys2Proof.core k t := by
  obtain ⟨t, ht⟩ := step_next s
  exact ⟨t, ht, run_succ k s t ht⟩

theorem run_next (k : Nat) (s : State) : ∃ t, Host.Core.run Sys2Proof.core k s = .next t := by
  induction k generalizing s with
  | zero => exact ⟨s, run_zero s⟩
  | succ k ih =>
    obtain ⟨t, -, hrun⟩ := run_succ_cases k s
    exact hrun ▸ ih t

end Sys2Proof.Machine

namespace Sys2Proof.Proofs

open Sys2Proof.Machine

/-- Settles O7: the fetch fits and its word decodes to `i`, so the step is `exec` of `i` on the fetched state. -/
theorem stepRunsDecodedInstruction : Obligations.StepRunsDecodedInstruction :=
  fun _ _ _ => step_instr

/-- Settles O9: the next state is the entry of the fetch fault, which writes the mode and the reply. -/
theorem fetchOutOfRangeHalts : Obligations.FetchOutOfRangeHalts := by
  intro s rnd he hm hpc
  exact ⟨_, step_fetch_out he hm hpc, rfl, rfl,
    keptBut_mode_inputs s .halted s.key rnd s.hostEvents.tail false _, rfl⟩

/-- Settles O10: the reported word is the fetched one, and of the machine's state only `PC` moves. -/
theorem unknownOpcodeIsSkipped : Obligations.UnknownOpcodeIsSkipped := by
  intro s rnd e he hm hpc hd
  exact ⟨_, step_unknown he hm hpc (decodeWord_fetchWord_error hd), pc_add_two_toNat hpc, hm,
    ⟨fetchWord s, rfl, fetchWord_toNat s⟩, keptBut_pc_inputs s _ s.key rnd s.hostEvents.tail false _, rfl⟩

/-- Settles O11: the number of a word from its two bytes. -/
theorem fetchIsBigEndian : Obligations.FetchIsBigEndian := fetchWord_toNat

/-- Settles O12, by induction on the number of steps: every event answers a next state. -/
theorem runNeverStops : Obligations.RunNeverStops := run_next

end Sys2Proof.Proofs
end

section
/-! PROOFS. The invariant (spec/10_state.md R25, R43; spec/20_memory.md R50): every instruction and every event keeps
it. -/

namespace Sys2Proof.Machine

/-- The invariant with another `PC`. -/
theorem State.Inv.of_pc {s t : State} (h : s.Inv) (hm : t.mem = s.mem) (hs : t.stack = s.stack)
    (hp : t.pc.toNat ≤ 0x10FE) : t.Inv :=
  ⟨hm ▸ h.1, hp, hs ▸ h.2.2⟩

/-- The invariant with another memory in canonical form. -/
theorem State.Inv.of_mem {s t : State} (h : s.Inv) (hw : Memory.wf t.mem) (hp : t.pc = s.pc)
    (hs : t.stack = s.stack) : t.Inv :=
  ⟨hw, hp ▸ h.2.1, hs ▸ h.2.2⟩

/-- A skip moves a `PC` in the reach of a fetch by at most 2. -/
theorem skipIf_pc_le {s : State} (c : Bool) (h : s.pc.toNat ≤ 0x1000) : (s.skipIf c).pc.toNat ≤ 0x10FE := by
  cases c
  · simp
    omega
  · simp [BitVec.toNat_add]
    omega

theorem skipIf_keeps_inv {s : State} (c : Bool) (r : Reply) (h : s.Inv) (hpc : s.pc.toNat ≤ 0x1000) :
    ((s.skipIf c).setReply r).Inv :=
  h.of_pc (by simp [skipIf_eq]) (by simp [skipIf_eq]) (skipIf_pc_le c hpc)

/-- The target of `Bnnn` as a number: the sum does not wrap, and is at most 0x10FE (R25, R113). -/
theorem jumpV0_toNat (nnn : Addr12) (s : State) :
    (addrOperand nnn + wideReg s v0).toNat = nnn.toNat + (s.getV v0).toNat := by
  have := nnn.isLt
  have := (s.getV v0).isLt
  simp [BitVec.toNat_add, wideReg]
  omega

/-- An instruction keeps the invariant when `PC` was advanced from an address of memory. -/
theorem exec_keeps_inv {i : Instr} {s t : State} (hi : s.Inv) (hlo : 2 ≤ s.pc.toNat) (hpc : s.pc.toNat ≤ 0x1000)
    (h : exec i s = .next t) : t.Inv := by
  rcases exec_next_cases h with ⟨he, -, -⟩ | ⟨c, -, rfl⟩
  case inr => exact hi.congr rfl rfl rfl
  cases i
  case jp nnn =>
    obtain rfl := retire_next_iff.mp h
    have := nnn.isLt
    exact hi.of_pc rfl rfl (by simp; omega)
  case jpV0 nnn =>
    obtain rfl := retire_next_iff.mp h
    have := nnn.isLt
    have := (s.getV v0).isLt
    exact hi.of_pc rfl rfl ((jumpV0_toNat nnn s).trans_le (by omega))
  case call nnn =>
    obtain ⟨hroom, rfl⟩ := exec_call_executed h he
    have := nnn.isLt
    refine ⟨hi.1, by simp; omega, fun k hk => ?_⟩
    simp only [State.setReply_stack, State.setPc_stack, Vector.getElem_set]
    split
    · exact hpc
    · exact hi.2.2 k hk
  case ret =>
    obtain ⟨d, hd, -, rfl⟩ := exec_ret_executed h he
    have := hi.2.2 d hd
    exact hi.of_pc rfl rfl (by simp; omega)
  case seImm | sneImm | seReg | sneReg | skp | sknp =>
    obtain rfl := retire_next_iff.mp h
    exact skipIf_keeps_inv _ _ hi hpc
  case ldVxK x =>
    rcases exec_ldVxK_next h with ⟨k, rfl⟩ | rfl
    · exact hi.congr rfl rfl rfl
    · exact hi.of_pc rfl rfl (by simp [State.rewind, BitVec.toNat_sub]; omega)
  case drw x y n =>
    obtain rfl := exec_drw_executed h he
    exact hi.congr rfl rfl rfl
  case ldB x =>
    obtain ⟨hfit, rfl⟩ := exec_ldB_executed h he
    exact hi.of_mem (Memory.wf_writeSpan hi.1 _ (by simp; omega)) rfl rfl
  case stRegs x =>
    obtain ⟨hfit, rfl⟩ := exec_stRegs_executed h he
    exact hi.of_mem (Memory.wf_writeSpan hi.1 _ (by simp; omega)) rfl rfl
  case ldRegs x =>
    obtain ⟨-, rfl⟩ := exec_ldRegs_executed h he
    exact hi.congr rfl rfl rfl
  all_goals
    obtain rfl := retire_next_iff.mp h
    exact hi.congr rfl rfl rfl

/-- The invariant after a fetch: `PC` is advanced to 0x1000 at most. -/
theorem fetched_inv {s : State} (rnd : Option Byte) (hi : s.Inv) (hpc : s.pc.toNat + 1 ≤ 0xFFF) : (fetched rnd s).Inv :=
  hi.of_pc rfl rfl (by have := pc_add_two_toNat hpc; simp only [fetched]; omega)

theorem stepEvent_keeps_inv {rnd : Option Byte} {s t : State} (hi : s.Inv) (h : stepEvent rnd s = .next t) :
    t.Inv := by
  rcases stepEvent_cases rnd s with ⟨-, e⟩ | ⟨-, e⟩ | ⟨hpc, i, e⟩ | ⟨hpc, w, e⟩
  · cases e.symm.trans h
    exact hi.congr rfl rfl rfl
  · cases e.symm.trans h
    exact hi.congr rfl rfl rfl
  · have hadv : (fetched rnd s).pc.toNat = s.pc.toNat + 2 := pc_add_two_toNat hpc
    exact exec_keeps_inv (fetched_inv rnd hi hpc) (by omega) (by omega) (e.symm.trans h)
  · cases e.symm.trans h
    exact (fetched_inv rnd hi hpc).congr rfl rfl rfl

/-- A `LOAD` copies a ROM that fits and is no longer possible, or changes the reply only (R252, R253). -/
theorem loadEvent_cases (bytes : List Byte) (s : State) :
    (s.loadable = true ∧ bytes.length ≤ 3584 ∧ loadEvent bytes s =
      { s with mem := Memory.writeSpan s.mem Config.loadBase bytes, reply := .loadOk, loadable := false }) ∨
    loadEvent bytes s = s.setReply .programTooLarge ∨ loadEvent bytes s = s.setReply .refused := by
  cases hl : s.loadable
  · exact .inr (.inr (loadEvent_late bytes hl))
  · rcases Nat.lt_or_ge 3584 bytes.length with hbig | hfit
    · exact .inr (.inl (loadEvent_tooLarge hl hbig))
    · exact .inl ⟨rfl, hfit, loadEvent_fits hl hfit⟩

/-- A key event changes keys and reply only. -/
theorem setKeyEvent_eq (index : Nat) (down : Bool) (s : State) :
    setKeyEvent index down s =
      { s with key := s.key.setIfInBounds index down, reply := if index < 16 then .nothing else .refused } := by
  by_cases h : index < 16
  · rw [setKeyEvent_inside down s h, if_pos h]
  · rw [setKeyEvent_outside down s h, if_neg h, Vector.setIfInBounds_eq_of_size_le (Nat.not_lt.mp h)]
    rfl

/-- `PAUSE` changes mode and reply only. -/
theorem pauseEvent_eq (s : State) :
    pauseEvent s = { s with mode := if s.mode = .running then .paused else s.mode, reply := .nothing } := by
  by_cases h : s.mode = .running
  · rw [pauseEvent_running h, if_pos h]; rfl
  · rw [pauseEvent_other h, if_neg h]; rfl

/-- `RESUME` changes mode and reply only. -/
theorem resumeEvent_eq (s : State) :
    resumeEvent s = { s with mode := if s.mode = .paused then .running else s.mode, reply := .nothing } := by
  by_cases h : s.mode = .paused
  · rw [resumeEvent_paused h, if_pos h]; rfl
  · rw [resumeEvent_other h, if_neg h]; rfl

theorem reset_inv : State.reset.Inv := ⟨Memory.wf_nil, by decide, by simp [State.reset]⟩

theorem handle_keeps_inv {e : Event} {s t : State} (hi : s.Inv) (h : handle e s = .next t) : t.Inv := by
  cases e with
  | step rnd => exact stepEvent_keeps_inv hi h
  | tick | halt => cases h; exact hi.congr rfl rfl rfl
  | setKey index down => cases h; rw [setKeyEvent_eq]; exact hi.congr rfl rfl rfl
  | pause => cases h; rw [pauseEvent_eq]; exact hi.congr rfl rfl rfl
  | resume => cases h; rw [resumeEvent_eq]; exact hi.congr rfl rfl rfl
  | load bytes =>
    cases h
    rcases loadEvent_cases bytes s with ⟨-, hfit, e⟩ | e | e
    · have hspan : 0x200 + bytes.length ≤ 4096 := by omega
      rw [e]
      exact hi.of_mem (Memory.wf_writeSpan hi.1 _ hspan) rfl rfl
    · rw [e]
      exact hi.congr rfl rfl rfl
    · rw [e]
      exact hi.congr rfl rfl rfl
  | reset => cases h; exact reset_inv.congr rfl rfl rfl

end Sys2Proof.Machine

namespace Sys2Proof.Proofs

open Sys2Proof.Machine

/-- Settles O54: memory lists nothing, `PC` is 0x200 and every slot is zero. -/
theorem invariantHoldsAtReset : Obligations.InvariantHoldsAtReset := reset_inv

/-- Settles O55: taking the event touches nothing the invariant speaks of, and every event keeps it. -/
theorem everyStepKeepsInvariant : Obligations.EveryStepKeepsInvariant := by
  intro s t hi h
  exact handle_keeps_inv (s := takeEvent s) (hi.congr rfl rfl rfl) h

end Sys2Proof.Proofs
end

section
/-! PROOFS. A halted machine (spec/60_exceptions.md R231, spec/70_reset_and_hazards.md R261): what every event but `RESET`
leaves as it was. -/

namespace Sys2Proof.Machine

/-- No event but `RESET` changes more of a halted machine than timers, memory, inputs and reply, nor the list of the
coming events. -/
theorem handle_halted {e : Event} {s : State} (hm : s.mode = .halted) (he : e ≠ .reset) :
    ∃ t, handle e s = .next t ∧ KeptBut [.delay, .sound, .memory, .inputs] s t ∧ t.hostEvents = s.hostEvents := by
  have inputs_only : ∀ key rnd loadable r, KeptBut [.delay, .sound, .memory, .inputs] s
      { s with key := key, rndIn := rnd, loadable := loadable, reply := r } :=
    fun key rnd loadable r => (keptBut_inputs_of_inputs_reply s key rnd s.hostEvents loadable r).mono (by simp)
  cases e with
  | step rnd => exact ⟨_, stepEvent_idle rnd (by simp [hm]), inputs_only _ _ _ _, rfl⟩
  | tick => exact ⟨_, rfl, keptBut_iff.mpr (by simp [tickEvent]), rfl⟩
  | setKey index down => exact ⟨_, congrArg Host.Outcome.next (setKeyEvent_eq index down s), inputs_only _ _ _ _, rfl⟩
  | pause => exact ⟨_, congrArg Host.Outcome.next (pauseEvent_other (by simp [hm])), inputs_only _ _ _ _, rfl⟩
  | resume => exact ⟨_, congrArg Host.Outcome.next (resumeEvent_other (by simp [hm])), inputs_only _ _ _ _, rfl⟩
  | halt => exact ⟨_, rfl, keptBut_iff.mpr (by simp [haltEvent, hm]), rfl⟩
  | load bytes =>
    rcases loadEvent_cases bytes s with ⟨-, -, h⟩ | h | h
    · have hk := keptBut_memory_inputs_of_mem_inputs_reply s (Memory.writeSpan s.mem Config.loadBase bytes)
        s.hostEvents false .loadOk
      exact ⟨_, congrArg Host.Outcome.next h, hk.mono (by simp), rfl⟩
    · exact ⟨_, congrArg Host.Outcome.next h, inputs_only _ _ _ _, rfl⟩
    · exact ⟨_, congrArg Host.Outcome.next h, inputs_only _ _ _ _, rfl⟩
  | reset => exact absurd rfl he

/-- The event that happens next is a `STEP` or one the host listed. -/
theorem nextEvent_ne_reset {s : State} (h : Event.reset ∉ s.hostEvents) : nextEvent s ≠ .reset := by
  cases hes : s.hostEvents with
  | nil => simp [nextEvent_nil hes]
  | cons e es =>
    rw [nextEvent_cons hes]
    rintro rfl
    exact h (by simp [hes])

/-- One step of a halted machine with no `RESET` to come. -/
theorem step_halted {s : State} (hm : s.mode = .halted) (hr : Event.reset ∉ s.hostEvents) :
    ∃ t, step s = .next t ∧ KeptBut [.delay, .sound, .memory, .inputs] s t ∧ t.mode = .halted ∧
      Event.reset ∉ t.hostEvents := by
  obtain ⟨t, h, hk, hes⟩ := handle_halted (s := takeEvent s) hm (nextEvent_ne_reset hr)
  have taken : KeptBut [.delay, .sound, .memory, .inputs] s (takeEvent s) :=
    (keptBut_inputs_of_inputs_reply s s.key s.rndIn s.hostEvents.tail s.loadable s.reply).mono (by simp)
  refine ⟨t, h, taken.trans hk, (hk .mode (by simp)).trans hm, ?_⟩
  rw [hes]
  exact fun hmem => hr (List.mem_of_mem_tail hmem)

end Sys2Proof.Machine

namespace Sys2Proof.Proofs

open Sys2Proof.Machine

/-- Settles O16, by induction on the number of steps: each keeps the machine halted, the frame, and that no `RESET` is to
come. -/
theorem haltedIsTerminal : Obligations.HaltedIsTerminal := by
  intro k
  induction k with
  | zero =>
    intro s t hm _ hrun
    cases hrun
    exact ⟨hm, KeptBut.refl _ s⟩
  | succ k ih =>
    intro s t hm hr hrun
    obtain ⟨u, hstep, hkept, hum, hur⟩ := step_halted hm hr
    rw [run_succ k s u hstep] at hrun
    obtain ⟨htm, hrest⟩ := ih u t hum hur hrun
    exact ⟨htm, hkept.trans hrest⟩

end Sys2Proof.Proofs
end

section
/-! PROOFS. The memory transfers (spec/43_index_memory.md section 3): what a stored span reads as, on both sides of 0xFFF,
and that what was stored is loaded and fetched again. -/

namespace Sys2Proof.Machine

/-! ### What a stored span reads as -/

/-- The three digits are bytes: their numbers are not truncated (R163). -/
theorem bcdDigits_toNat (b : Byte) :
    (bcdDigits b).map BitVec.toNat = [b.toNat / 100, b.toNat / 10 % 10, b.toNat % 10] := by
  have := b.isLt
  simp [bcdDigits]
  omega

/-- Digit `k` stands `k` bytes after the base. -/
theorem read_bcdDigits (m : Memory) (a k : Nat) (b : Byte) (h : k < 3) :
    (Memory.read (Memory.writeSpan m a (bcdDigits b)) (a + k)).toNat =
      [b.toNat / 100, b.toNat / 10 % 10, b.toNat % 10][k] := by
  rw [Memory.read_writeSpan_inside m a k (bcdDigits b) h]
  simp only [← bcdDigits_toNat]
  exact (List.getElem_map BitVec.toNat).symm

/-- `V[r]` stands `r` bytes after the base (R165). -/
theorem read_regBlock (s : State) (m : Memory) (a : Nat) {x r : Reg} (h : r.toNat ≤ x.toNat) :
    Memory.read (Memory.writeSpan m a (regBlock s x)) (a + r.toNat) = s.getV r := by
  rw [Memory.read_writeSpan_inside m a r.toNat (regBlock s x) (by simp; omega), regBlock_getElem, BitVec.ofNat_toNat,
    BitVec.setWidth_eq]

/-- A span is all a memory write touches. -/
theorem memoryKeptBut_setMem (s : State) (a : Nat) (bs : List Byte) (r : Reply) :
    MemoryKeptBut a bs.length s ((s.setMem (Memory.writeSpan s.mem a bs)).setReply r) :=
  fun _ hout => Memory.read_writeSpan_outside hout

end Sys2Proof.Machine

namespace Sys2Proof.Proofs

open Sys2Proof.Machine

/-- Settles O35: the next state of a store that fits is the old one with the digits written; one that does not fit is
fault entry. -/
theorem storeDecimalDigits : Obligations.StoreDecimalDigits := by
  intro x s
  constructor
  case left =>
    intro hfit
    have h := exec_ldB_fits x hfit
    have digit := fun k hk => read_bcdDigits s.mem s.i.toNat k (s.getV x) hk
    exact ⟨_, h, rfl, digit 0 (by decide), digit 1 (by decide), digit 2 (by decide),
      memoryKeptBut_setMem s _ (bcdDigits (s.getV x)) _, keptBut_of_executed h rfl⟩
  case right =>
    intro hout
    rw [exec_ldB_out x hout]
    exact raiseFault_halts .addressOutOfRange (.ldB x) s

/-- Settles O36: as O35, with the block of registers for the digits. -/
theorem storeRegisterBlock : Obligations.StoreRegisterBlock := by
  intro x s
  constructor
  case left =>
    intro hfit
    have h := exec_stRegs_fits x hfit
    exact ⟨_, h, rfl, fun r hr => read_regBlock s s.mem s.i.toNat hr,
      regBlock_length s x ▸ memoryKeptBut_setMem s s.i.toNat (regBlock s x) _, keptBut_of_executed h rfl⟩
  case right =>
    intro hout
    rw [exec_stRegs_out x hout]
    exact raiseFault_halts .addressOutOfRange (.stRegs x) s

/-- Settles O37: the register file of a load that fits is `loadedRegs`; one that does not fit is fault entry. -/
theorem loadRegisterBlock : Obligations.LoadRegisterBlock := by
  intro x s
  constructor
  case left =>
    intro hfit
    have h := exec_ldRegs_fits x hfit
    exact ⟨_, h, rfl, fun r => loadedRegs_getElem s x r s.i.toNat, keptBut_of_executed h rfl⟩
  case right =>
    intro hout
    rw [exec_ldRegs_out x hout]
    exact raiseFault_halts .addressOutOfRange (.ldRegs x) s

/-- Settles O38: byte `I + r` reads as the stored `V[r]`, and that is what the load gives register `r`. -/
theorem blockStoreThenLoadRestores : Obligations.BlockStoreThenLoadRestores := by
  intro x s t u hfit hst hmem hi
  obtain rfl := retire_next_iff.mp ((exec_stRegs_fits x hfit).symm.trans hst)
  have hui : u.i.toNat = s.i.toNat := congrArg BitVec.toNat hi
  have stored : ∀ r : Reg, r.toNat ≤ x.toNat → u.readByte (u.i.toNat + r.toNat) = s.getV r := by
    intro r hr
    rw [State.readByte, hmem, hui]
    exact read_regBlock s s.mem s.i.toNat hr
  refine ⟨_, exec_ldRegs_fits x (hui ▸ hfit), rfl, fun r hr => ⟨?_, stored r hr⟩⟩
  calc _ = if r.toNat ≤ x.toNat then u.readByte (u.i.toNat + r.toNat) else u.getV r := loadedRegs_getElem u x r _
    _ = s.getV r := by rw [if_pos hr, stored r hr]

/-- Settles O39: the two bytes at `PC` read as the stored `V[0]` and `V[1]`. -/
theorem storedCodeIsFetched : Obligations.StoredCodeIsFetched := by
  intro x s t u hx hfit hst hmem hpc
  obtain rfl := retire_next_iff.mp ((exec_stRegs_fits x hfit).symm.trans hst)
  have stored : ∀ r : Reg, r.toNat ≤ x.toNat → u.readByte (u.pc.toNat + r.toNat) = s.getV r := by
    intro r hr
    rw [State.readByte, hmem, hpc]
    exact read_regBlock s s.mem s.i.toNat hr
  rw [fetchWord_toNat, ← stored 0x0#4 (Nat.zero_le _), ← stored 0x1#4 hx]
  rfl

end Sys2Proof.Proofs
end

section
/-! PROOFS. Drawing (spec/44_sprite_display.md section 3): the pixels a draw flips, its flag, and the same draw again. -/

namespace Sys2Proof.Machine

/-- What a sprite hits depends on memory, `I` and the two coordinates. -/
theorem SpriteHits.congr {s u : State} {x y : Reg} (hm : u.mem = s.mem) (hi : u.i = s.i) (hx : u.getV x = s.getV x)
    (hy : u.getV y = s.getV y) (n : Nibble) (j : Nat) : SpriteHits u x y n j ↔ SpriteHits s x y n j := by
  simp only [SpriteHits, State.readByte, hm, hi, hx, hy]

theorem SpriteHits.lt {s : State} {x y : Reg} {n : Nibble} {j : Nat} (h : SpriteHits s x y n j) : j < 2048 := by
  obtain ⟨row, col, -, -, -, rfl⟩ := h
  exact Nat.mod_lt _ (by decide)

theorem exists_bit_of_ne_zero {b : Byte} (h : b ≠ 0x00#8) : ∃ col < 8, b.getLsbD (7 - col) = true := by
  by_contra hno
  refine h (BitVec.eq_of_getLsbD_eq fun k hk => ?_)
  have hbit : ¬ b.getLsbD (7 - (7 - k)) = true := fun hb => hno ⟨7 - k, by omega, hb⟩
  rw [show 7 - (7 - k) = k by omega] at hbit
  simpa using hbit

/-- A sprite hits some pixel exactly when one of its bytes is not zero. -/
theorem exists_spriteHits_iff (s : State) (x y : Reg) (n : Nibble) :
    (∃ j, SpriteHits s x y n j) ↔ ∃ row < n.toNat, s.readByte (s.i.toNat + row) ≠ 0x00#8 := by
  constructor
  · rintro ⟨_, row, col, hrow, -, hb, -⟩
    exact ⟨row, hrow, fun h0 => by simp [h0] at hb⟩
  · rintro ⟨row, hrow, hb⟩
    obtain ⟨col, hcol, hbit⟩ := exists_bit_of_ne_zero hb
    exact ⟨_, row, col, hrow, hcol, hbit, rfl⟩

/-- The flag of a draw: a pixel the sprite hits was set before (R185). -/
def Collides (s : State) (x y : Reg) (n : Nibble) : Prop := ∃ j < 2048, SpriteHits s x y n j ∧ pixel s.fb j = true

theorem drawnFlag_of_collides {s : State} {x y : Reg} {n : Nibble} (h : Collides s x y n) :
    flagByte (drawnScreen s x y n).2 = 0x01#8 := by
  rw [(drawnScreen_spec s x y n).2.2.mpr h]
  rfl

theorem drawnFlag_of_not_collides {s : State} {x y : Reg} {n : Nibble} (h : ¬ Collides s x y n) :
    flagByte (drawnScreen s x y n).2 = 0x00#8 := by
  rw [Bool.eq_false_iff.mpr (mt (drawnScreen_spec s x y n).2.2.mp h)]
  rfl

/-- A second draw of the same sprite on the screen the first left gives the screen before the first (R187). -/
theorem drawnScreen_twice {s u : State} {x y : Reg} {n : Nibble} (hfb : u.fb = (drawnScreen s x y n).1)
    (hits : ∀ j, SpriteHits u x y n j ↔ SpriteHits s x y n j) : (drawnScreen u x y n).1 = s.fb := by
  obtain ⟨flips, stays, -⟩ := drawnScreen_spec s x y n
  obtain ⟨flips', stays', -⟩ := drawnScreen_spec u x y n
  refine screen_ext fun j hj => ?_
  by_cases h : SpriteHits s x y n j
  · rw [flips' j hj ((hits j).mpr h), hfb, flips j hj h, Bool.not_not]
  · rw [stays' j hj (mt (hits j).mp h), hfb, stays j hj h]

end Sys2Proof.Machine

namespace Sys2Proof.Proofs

open Sys2Proof.Machine

/-- Settles O41: the next state of a draw that fits carries the drawn screen and its flag; one that does not fit is fault
entry. -/
theorem drawTogglesSpritePixels : Obligations.DrawTogglesSpritePixels := by
  intro x y n s
  constructor
  case left =>
    intro hfit
    have h := exec_drw_fits x y n hfit
    obtain ⟨flips, stays, -⟩ := drawnScreen_spec s x y n
    exact ⟨_, h, rfl, flips, stays,
      fun hc => (State.setV_getV_same _ vf _).trans (drawnFlag_of_collides hc),
      fun hc => (State.setV_getV_same _ vf _).trans (drawnFlag_of_not_collides hc),
      regsKeptBut_of_executed h rfl, keptBut_of_executed h rfl⟩
  case right =>
    intro hn hout
    rw [exec_drw_out x y n hn hout]
    exact raiseFault_halts .addressOutOfRange (.drw x y n) s

/-- Settles O42: the second draw hits the same pixels and flips them back; on a blank screen the first hits no set pixel,
and the second hits only pixels the first set. -/
theorem drawTwiceRestoresScreen : Obligations.DrawTwiceRestoresScreen := by
  intro x y n s t u hfit hdraw hfb hmem hi hx hy
  obtain rfl := retire_next_iff.mp ((exec_drw_fits x y n hfit).symm.trans hdraw)
  have hits := SpriteHits.congr hmem hi hx hy n
  have hufb : u.fb = (drawnScreen s x y n).1 := hfb
  have restored := drawnScreen_twice hufb hits
  refine ⟨_, exec_drw_fits x y n (hi ▸ hfit), rfl, restored, fun hblank => ⟨?first, ?set, ?unset⟩⟩
  case first =>
    refine (State.setV_getV_same _ vf _).trans (drawnFlag_of_not_collides ?_)
    rintro ⟨j, hj, -, hset⟩
    exact absurd (hblank j hj) (by simp [hset])
  case set =>
    intro hbyte
    obtain ⟨j, hj⟩ := (exists_spriteHits_iff s x y n).mpr hbyte
    refine (State.setV_getV_same _ vf _).trans (drawnFlag_of_collides ⟨j, hj.lt, (hits j).mpr hj, ?_⟩)
    rw [hufb, (drawnScreen_spec s x y n).1 j hj.lt hj, hblank j hj.lt]
    rfl
  case unset =>
    intro hzero
    refine (State.setV_getV_same _ vf _).trans (drawnFlag_of_not_collides ?_)
    rintro ⟨j, -, hj, -⟩
    obtain ⟨row, hrow, hne⟩ := (exists_spriteHits_iff s x y n).mp ⟨j, (hits j).mp hj⟩
    exact hne (hzero row hrow)

end Sys2Proof.Proofs
end

section
/-! PROOFS. Runs of several steps: a call and the return at its target (spec/41_control_flow.md R119), the key wait
(spec/45_timers_keypad.md R203) and ticks (R208). -/

namespace Sys2Proof.Machine

/-! ### Call and return -/

/-- The state a call leaves where there is room. -/
def called (nnn : Addr12) (s : State) (h : s.sp.val < 12) : State :=
  ({ s with stack := s.stack.set s.sp.val s.pc h, sp := ⟨s.sp.val + 1, by omega⟩ }.setPc (addrOperand nnn)).setReply
    (.cycle .executed)

theorem step_call {s : State} {nnn : Addr12} (hr : Ready (.call nnn) s) (h : s.sp.val < 12) :
    step s = .next (called nnn (fetched none (takeEvent s)) h) :=
  (step_ready hr).trans (exec_call_room (s := fetched none (takeEvent s)) nnn h)

/-- After a call the machine is about to execute what stands at the target. -/
theorem ready_called {s : State} {nnn : Addr12} {i : Instr} (hr : Ready (.call nnn) s) (h : s.sp.val < 12)
    (hi : InstrAt i s nnn.toNat) : Ready i (called nnn (fetched none (takeEvent s)) h) := by
  refine ⟨hr.1, by simp [called, fetched, takeEvent, hr.2.1], ?_⟩
  exact (addrOperand_toNat nnn).symm ▸ hi.congr (fun _ => rfl)

/-- The state the return leaves after the call: back at the address after the call, that address in the slot. -/
theorem step_ret_called {s : State} {nnn : Addr12} (hr : Ready (.call nnn) s) (h : s.sp.val < 12)
    (hi : InstrAt .ret s nnn.toNat) :
    step (called nnn (fetched none (takeEvent s)) h) = .next { s with
      stack := s.stack.set s.sp.val (s.pc + 2#16) h, pc := s.pc + 2#16, rndIn := none, loadable := false,
      hostEvents := [], reply := .cycle .executed } := by
  rw [step_ready (ready_called hr h hi), exec_ret_live h rfl, retire_eq]
  simp [called, fetched, takeEvent, State.setPc, State.setReply, hr.2.1]

/-! ### The key wait -/

/-- A key wait with no key down leaves the machine where it was: the advance and the step back of `PC` cancel. -/
theorem step_keyWait {s : State} {x : Reg} (hr : Ready (.ldVxK x) s) (hk : leastKeyDown s = none) :
    step s = .next { s with rndIn := none, loadable := false, hostEvents := [], reply := .cycle .executed } := by
  have hk' : leastKeyDown (fetched none (takeEvent s)) = none := hk
  rw [step_ready hr, exec_ldVxK_none hk', retire_eq]
  simp [fetched, takeEvent, State.rewind, State.setPc, State.setReply, hr.2.1]

theorem leastKeyDown_none {s : State} (h : ∀ (k : Nat) (hk : k < 16), s.key[k] = false) : leastKeyDown s = none := by
  rcases leastKeyDown_cases s with ⟨k, hk, hdown, -⟩ | ⟨-, e⟩
  · exact absurd (h k hk) (by simp [hdown])
  · exact e

/-- The scan gives the least key that is down. -/
theorem leastKeyDown_some {s : State} {k : Nat} (hk : k < 16) (hdown : s.key[k] = true)
    (hleast : ∀ (j : Nat) (hj : j < k), s.key[j] = false) : leastKeyDown s = some (BitVec.ofNat 8 k) := by
  rcases leastKeyDown_cases s with ⟨k', hk', hdown', hleast', e⟩ | ⟨hnone, -⟩
  · rcases Nat.lt_trichotomy k k' with hlt | rfl | hlt
    · exact absurd (hleast' k hlt) (by simp [hdown])
    · exact e
    · exact absurd (hleast k' hlt) (by simp [hdown'])
  · exact absurd (hnone k hk) (by simp [hdown])

/-- Any number of steps at a key wait with no key down. -/
theorem run_keyWait (n : Nat) {x : Reg} {s : State} (hr : Ready (.ldVxK x) s) (hk : leastKeyDown s = none) :
    ∃ t, Host.Core.run Sys2Proof.core n s = .next t ∧ KeptBut [.inputs] s t ∧ t.key = s.key ∧
      (0 < n ∨ Executed s → Executed t) := by
  induction n generalizing s with
  | zero => exact ⟨s, run_zero s, KeptBut.refl _ s, rfl, by simp⟩
  | succ n ih =>
    have hstep := step_keyWait hr hk
    obtain ⟨hm, -, hi⟩ := hr
    obtain ⟨t, hrun, hkept, hkey, hex⟩ := ih (s := { s with
      rndIn := none, loadable := false, hostEvents := [], reply := .cycle .executed }) ⟨hm, rfl, hi⟩ hk
    refine ⟨t, (run_succ n s _ hstep).trans hrun, ?_, hkey, fun _ => hex (.inr rfl)⟩
    exact (keptBut_inputs_of_inputs_reply s s.key none [] false _).trans hkept

/-! ### Ticks -/

/-- A tick, the event taken from the host's list included. -/
theorem step_tick {s : State} (he : nextEvent s = .tick) : step s = .next (tickEvent (takeEvent s)) := step_of_event he

theorem keptBut_tick (s : State) : KeptBut [.delay, .sound, .inputs] s (tickEvent (takeEvent s)) :=
  keptBut_iff.mpr (by simp [tickEvent, takeEvent, State.getV, State.readByte])

/-- `k` ticks take `k` from each timer, floor 0 (R208). -/
theorem run_ticks (k : Nat) {rest : List Event} {s : State} (hes : s.hostEvents = List.replicate k .tick ++ rest) :
    ∃ t, Host.Core.run Sys2Proof.core k s = .next t ∧ t.dt.toNat = s.dt.toNat - k ∧ t.st.toNat = s.st.toNat - k ∧
      t.hostEvents = rest ∧ KeptBut [.delay, .sound, .inputs] s t ∧
      t.key = s.key ∧ t.rndIn = s.rndIn ∧ t.loadable = s.loadable := by
  induction k generalizing s with
  | zero => exact ⟨s, run_zero s, rfl, rfl, hes, KeptBut.refl _ s, rfl, rfl, rfl⟩
  | succ k ih =>
    have hstep := step_tick (nextEvent_cons hes)
    have hrest : (tickEvent (takeEvent s)).hostEvents = List.replicate k .tick ++ rest := congrArg List.tail hes
    obtain ⟨t, hrun, hdt, hst, hev, hkept, hkey, hrnd, hload⟩ := ih hrest
    refine ⟨t, (run_succ k s _ hstep).trans hrun, ?_, ?_, hev, (keptBut_tick s).trans hkept, hkey, hrnd, hload⟩
    · have : (tickEvent (takeEvent s)).dt.toNat = s.dt.toNat - 1 := tickTimer_toNat s.dt
      omega
    · have : (tickEvent (takeEvent s)).st.toNat = s.st.toNat - 1 := tickTimer_toNat s.st
      omega

end Sys2Proof.Machine

namespace Sys2Proof.Proofs

open Sys2Proof.Machine

/-- Settles O23: the state after the two steps, whole. -/
theorem callThenReturnResumes : Obligations.CallThenReturnResumes := by
  rintro s nnn d hd hr rfl hi
  have hpc : (s.pc + 2#16).toNat = s.pc.toNat + 2 := pc_add_two_toNat hr.2.2.1
  have hrun := (run_succ 1 s _ (step_call hr hd)).trans (run_succ 0 _ _ (step_ret_called hr hd hi))
  refine ⟨_, hrun, rfl, hpc, rfl, ?slot, ?others, ?kept, rfl, rfl, rfl, rfl⟩
  case slot => rw [Vector.getElem_set_self, hpc]
  case others => exact fun k hk hne => Vector.getElem_set_ne hd hk (Ne.symm hne)
  case kept => exact keptBut_iff.mpr (by simp [State.getV, State.readByte])

/-- Settles O45: the scan of the keypad decides the two ways the key wait ends. -/
theorem keyWaitTakesLeastKeyDown : Obligations.KeyWaitTakesLeastKeyDown := by
  intro x s
  constructor
  case left =>
    intro k hk hdown hleast
    have h := exec_ldVxK_some (x := x) (leastKeyDown_some hk hdown hleast)
    refine ⟨_, h, rfl, ?_, regsKeptBut_of_executed h rfl, keptBut_iff.mpr (by simp)⟩
    simp
    omega
  case right =>
    intro hup
    exact ⟨_, exec_ldVxK_none (leastKeyDown_none hup), rfl, rfl, keptBut_iff.mpr (by simp [State.rewind])⟩

/-- Settles O46, by induction on the number of steps: each leaves the machine ready for the next. -/
theorem keyWaitStaysPut : Obligations.KeyWaitStaysPut := by
  intro n x s hr hup
  obtain ⟨t, hrun, hkept, hkey, hex⟩ := run_keyWait n hr (leastKeyDown_none hup)
  exact ⟨t, hrun, hkept, hkey, fun hn => hex (.inl hn)⟩

/-- Settles O48, by induction on the number of ticks. -/
theorem ticksFloorAtZero : Obligations.TicksFloorAtZero := fun k _ _ => run_ticks k

end Sys2Proof.Proofs
end

section
/-! PROOFS. The host's other events (spec/45_timers_keypad.md R204, R209; spec/70_reset_and_hazards.md R250 to R261): the
next state of each, the event taken from the host's list. -/

namespace Sys2Proof.Machine

/-! ### Memory and screen after reset -/

/-- The font stands at 0x50 (R44, R54). -/
theorem background_font {k : Nat} (h : k < 80) : some (Memory.background (0x50 + k)) = fontBytes[k]? := by
  have hlen : k < fontBytes.length := h
  simp [Memory.background, hlen]

/-- Outside the font every byte is zero (R44). -/
theorem background_zero {a : Nat} (h : a < 0x50 ∨ 0xA0 ≤ a) : Memory.background a = 0x00#8 := by
  have hlen : fontBytes.length = 80 := rfl
  unfold Memory.background
  split
  · rw [List.getD_eq_default]
    omega
  · rfl

/-! ### Whether a load is possible -/

theorem stepEvent_loadable {rnd : Option Byte} {s t : State} (h : stepEvent rnd s = .next t) : t.loadable = false := by
  rcases stepEvent_cases rnd s with ⟨-, e⟩ | ⟨-, e⟩ | ⟨-, i, e⟩ | ⟨-, w, e⟩
  · cases e.symm.trans h
    rfl
  · cases e.symm.trans h
    rfl
  · have hkept : Part.inputs.kept (fetched rnd s) t :=
      keptBut_mayWrite (e.symm.trans h) .inputs (by cases i <;> simp [mayWrite])
    exact hkept.2.2.2
  · cases e.symm.trans h
    rfl

theorem loadEvent_loadable {bytes : List Byte} {s : State} (h : (loadEvent bytes s).reply = .loadOk) :
    (loadEvent bytes s).loadable = false := by
  rcases loadEvent_cases bytes s with ⟨-, -, e⟩ | e | e
  · rw [e]
  · rw [e] at h
    cases h
  · rw [e] at h
    cases h

end Sys2Proof.Machine

namespace Sys2Proof.Proofs

open Sys2Proof.Machine

/-- Settles O47: the next state is the tick of both timers, the event taken from the host's list. -/
theorem tickDecrementsNonzeroTimers : Obligations.TickDecrementsNonzeroTimers := by
  intro s he
  exact ⟨_, step_tick he, tickTimer_toNat s.dt, tickTimer_toNat s.st, rfl, keptBut_tick s, rfl, rfl, rfl⟩

/-- Settles O49: the key flags are the old ones with the event's own put in, where its index is one. -/
theorem setKeyWritesOneFlag : Obligations.SetKeyWritesOneFlag := by
  intro s index down he
  have h := (step_of_event he).trans (congrArg Host.Outcome.next (setKeyEvent_eq index down (takeEvent s)))
  refine ⟨_, h, keptBut_inputs_of_inputs_reply s _ s.rndIn s.hostEvents.tail s.loadable _, rfl, rfl, rfl, ?_, rfl⟩
  intro k hk
  simp [Vector.getElem_setIfInBounds, takeEvent, eq_comm]

/-- Settles O50: each of the three next states, whole. -/
theorem modeEventsFollowTheirTable : Obligations.ModeEventsFollowTheirTable := by
  intro s
  have kept := fun m => keptBut_mode_inputs s m s.key s.rndIn s.hostEvents.tail s.loadable .nothing
  refine ⟨fun he => ?pause, fun he => ?resume, fun he => ?halt⟩
  case pause =>
    exact ⟨_, (step_of_event he).trans (congrArg Host.Outcome.next (pauseEvent_eq (takeEvent s))), kept _, rfl, rfl⟩
  case resume =>
    exact ⟨_, (step_of_event he).trans (congrArg Host.Outcome.next (resumeEvent_eq (takeEvent s))), kept _, rfl, rfl⟩
  case halt => exact ⟨_, step_of_event he, kept _, rfl, rfl⟩

/-- Settles O51: the next state is the reset state with the host's list; its memory lists nothing, so it reads as the
reset contents. -/
theorem resetGivesTheTableOfResetValues : Obligations.ResetGivesTheTableOfResetValues := by
  intro s he
  refine ⟨_, step_of_event he, ?regs, rfl, rfl, rfl, ?stack, rfl, rfl, fun j _ => pixel_blank j, rfl,
    fun k hk => background_font hk, fun a ha => background_zero ha, ?keys, rfl, rfl⟩
  case regs => exact fun r => Vector.getElem_replicate r.isLt
  case stack => exact fun k hk => Vector.getElem_replicate hk
  case keys => exact fun k hk => Vector.getElem_replicate hk

/-- Settles O53: a late load only replies; a `STEP` ends the possibility before it executes anything, and no instruction
writes the inputs; a load that replies `Ok` ends it. -/
theorem loadIsRefusedOutsideItsPlace : Obligations.LoadIsRefusedOutsideItsPlace := by
  intro s
  refine ⟨?late, ?afterStep, ?afterLoad⟩
  case late =>
    intro bytes he hl
    exact ⟨_, (step_of_event he).trans (congrArg Host.Outcome.next (loadEvent_late (s := takeEvent s) bytes hl)), rfl,
      keptBut_inputs_of_inputs_reply s s.key s.rndIn s.hostEvents.tail s.loadable _, rfl, hl⟩
  case afterStep =>
    intro rnd t he h
    exact stepEvent_loadable ((step_of_event he).symm.trans h)
  case afterLoad =>
    intro bytes t he h hok
    cases (step_of_event he).symm.trans h
    exact loadEvent_loadable hok

end Sys2Proof.Proofs
end

section
/-! PROOFS. The instructions that only write registers, `I`, `PC` or a timer (spec/41_control_flow.md, spec/42_alu.md,
spec/43_index_memory.md section 2, spec/45_timers_keypad.md): the value each writes, and all it keeps. -/

namespace Sys2Proof.Machine

/-! ### Skips -/

/-- An instruction that ends in a skip: `PC` is 2 more, modulo 65536, exactly when the comparison holds. -/
theorem skip_next {i : Instr} {s : State} {c : Bool} {p : Prop} [Decidable p] (h : exec i s = retire (s.skipIf c))
    (hc : c = true ↔ p) :
    ∃ t, exec i s = .next t ∧ Executed t ∧ KeptBut [.pc] s t ∧
      t.pc.toNat = if p then (s.pc.toNat + 2) % 65536 else s.pc.toNat := by
  refine ⟨_, h, rfl, keptBut_iff.mpr (by simp [skipIf_eq]), ?_⟩
  rw [State.setReply_pc, skipIf_eq, State.setPc_pc]
  by_cases hp : p
  · rw [if_pos hp, if_pos (hc.mpr hp), BitVec.toNat_add]
    rfl
  · rw [if_neg hp, if_neg (mt hc.mp hp)]

theorem beq_iff_toNat_eq {a b : Byte} : (a == b) = true ↔ a.toNat = b.toNat := by
  rw [beq_iff_eq, BitVec.toNat_inj]

theorem bne_iff_toNat_ne {a b : Byte} : (a != b) = true ↔ a.toNat ≠ b.toNat := by
  rw [bne_iff_ne, ne_eq, ne_eq, BitVec.toNat_inj]

@[simp] theorem lowNibble_toNat (s : State) (x : Reg) : (lowNibble s x).toNat = (s.getV x).toNat % 16 := by
  simp [lowNibble]

/-! ### One register -/

/-- An instruction that ends in the write of one register. -/
theorem setV_next {i : Instr} {s : State} {x : Reg} {b : Byte} (h : exec i s = retire (s.setV x b)) :
    ∃ t, exec i s = .next t ∧ Executed t ∧ t.getV x = b ∧ RegsKeptBut [x] s t ∧ KeptBut [.regs] s t :=
  ⟨_, h, rfl, State.setV_getV_same s x b, fun _ hr => State.setV_getV_other s b (List.ne_of_not_mem_cons hr),
    keptBut_iff.mpr (by simp)⟩

/-! ### The ALU -/

theorem flagByte_toNat (f : Bool) : (flagByte f).toNat = f.toNat := by cases f <;> rfl

theorem flagByte_decide_toNat (p : Prop) [Decidable p] : (flagByte (decide p)).toNat = if p then 1 else 0 := by
  by_cases h : p <;> simp [h, flagByte]

/-- An instruction that ends in the ALU's writes: the result in `V[x]`, unless it is `VF`, and the flag in `VF`. -/
theorem alu_next {i : Instr} {s : State} {x : Reg} {o : AluOut} {result flag : Nat}
    (h : exec i s = retire (writeAlu s x o)) (hr : o.1.toNat = result) (hf : (flagByte o.2).toNat = flag) :
    ∃ t, exec i s = .next t ∧ Executed t ∧ (x ≠ 0xF#4 → (t.getV x).toNat = result) ∧ (t.getV 0xF#4).toNat = flag ∧
      RegsKeptBut [x, 0xF#4] s t ∧ KeptBut [.regs] s t := by
  refine ⟨_, h, rfl, fun hx => ?result, ?flag, fun r hr => ?others, keptBut_iff.mpr (by simp [writeAlu])⟩
  case result => simp [writeAlu_getV, hx, hr]
  case flag => simp [writeAlu_getV, hf]
  case others =>
    simp at hr
    simp [writeAlu_getV, hr]

theorem aluShr_toNat (a : Byte) : (aluShr a).1.toNat = a.toNat / 2 ∧ (flagByte (aluShr a).2).toNat = a.toNat % 2 := by
  have := a.isLt
  refine ⟨(trunc8_toNat _).trans (Nat.mod_eq_of_lt (by omega)), ?_⟩
  rw [flagByte_toNat, aluShr, BitVec.getLsbD, Nat.toNat_testBit, pow_zero, Nat.div_one]

theorem aluShl_toNat (a : Byte) :
    (aluShl a).1.toNat = a.toNat * 2 % 256 ∧ (flagByte (aluShl a).2).toNat = a.toNat / 128 := by
  have := a.isLt
  refine ⟨trunc8_toNat _, ?_⟩
  rw [flagByte_toNat, aluShl, BitVec.getLsbD, Nat.toNat_testBit]
  omega

end Sys2Proof.Machine

namespace Sys2Proof.Proofs

open Sys2Proof.Machine

/-- Settles O1: each of the eleven words is decoded by evaluation. -/
theorem spelledWordsDecode : Obligations.SpelledWordsDecode :=
  ⟨rfl, rfl, rfl, rfl, rfl, rfl, rfl, rfl, rfl, rfl, rfl⟩

/-- Settles O19: the address operand is zero-extended, so its number is that of `nnn`. -/
theorem jumpSetsPc : Obligations.JumpSetsPc := by
  intro nnn s
  have h : exec (.jp nnn) s = retire (s.setPc (addrOperand nnn)) := rfl
  exact ⟨_, h, rfl, addrOperand_toNat nnn, keptBut_of_executed h rfl⟩

/-- Settles O20: the sum of a 12-bit and an 8-bit number does not wrap at 16 bits. -/
theorem jumpWithOffsetAddsV0 : Obligations.JumpWithOffsetAddsV0 := by
  intro nnn s
  have h : exec (.jpV0 nnn) s = retire (s.setPc (addrOperand nnn + wideReg s v0)) := rfl
  exact ⟨_, h, rfl, jumpV0_toNat nnn s, keptBut_of_executed h rfl⟩

/-- Settles O24: the four are `skip_next` with their comparisons. -/
theorem registerSkips : Obligations.RegisterSkips := by
  intro x y kk s
  exact ⟨skip_next rfl beq_iff_toNat_eq, skip_next rfl bne_iff_toNat_ne, skip_next rfl beq_iff_toNat_eq,
    skip_next rfl bne_iff_toNat_ne⟩

/-- Settles O44: the two are `skip_next` with the key of the low nibble. -/
theorem keySkips : Obligations.KeySkips := by
  rintro x s k hk rfl
  have hkey : keyDown s (lowNibble s x) = s.key[(s.getV x).toNat % 16] := by simp [keyDown]
  exact ⟨skip_next rfl (by rw [hkey]), skip_next rfl (by rw [hkey, Bool.not_eq_true'])⟩

/-- Settles O25: both end in the write of one register. -/
theorem loadImmediateAndCopy : Obligations.LoadImmediateAndCopy :=
  fun _ _ _ _ => ⟨setV_next rfl, setV_next rfl⟩

/-- Settles O26: the write of one register, with the sum narrowed at the end. -/
theorem addImmediateWraps : Obligations.AddImmediateWraps := by
  intro x kk s
  obtain ⟨t, h, he, hv, hkept⟩ := setV_next (i := .addImm x kk) (s := s) rfl
  exact ⟨t, h, he, hv ▸ trunc8_toNat _, hkept⟩

/-- Settles O27: the value is the bitwise operation of the library, whose bits it knows. -/
theorem logicOperatesBitwise : Obligations.LogicOperatesBitwise := by
  intro x y s
  refine ⟨?or, ?and, ?xor⟩
  case or =>
    obtain ⟨t, h, he, hv, hregs, hkept⟩ := setV_next (i := .orReg x y) (s := s) rfl
    exact ⟨t, h, he, hregs, hkept, fun b _ => hv ▸ BitVec.getLsbD_or⟩
  case and =>
    obtain ⟨t, h, he, hv, hregs, hkept⟩ := setV_next (i := .andReg x y) (s := s) rfl
    exact ⟨t, h, he, hregs, hkept, fun b _ => hv ▸ BitVec.getLsbD_and⟩
  case xor =>
    obtain ⟨t, h, he, hv, hregs, hkept⟩ := setV_next (i := .xorReg x y) (s := s) rfl
    exact ⟨t, h, he, hregs, hkept, fun b _ => hv ▸ BitVec.getLsbD_xor⟩

/-- Settles O28: the sum narrows at the end, and the flag is written last. -/
theorem addWritesSumThenCarry : Obligations.AddWritesSumThenCarry :=
  fun _ _ _ => alu_next rfl (trunc8_toNat _) (flagByte_decide_toNat _)

/-- Settles O29: as O28, with the strict comparison for the flag. -/
theorem subtractFlagIsStrictlyGreater : Obligations.SubtractFlagIsStrictlyGreater :=
  fun _ _ _ => alu_next rfl (trunc8_toNat _) (flagByte_decide_toNat _)

/-- Settles O30: as O29, with the operands exchanged. -/
theorem subtractReversed : Obligations.SubtractReversed :=
  fun _ _ _ => alu_next rfl (trunc8_toNat _) (flagByte_decide_toNat _)

/-- Settles O31: the results and flags are `aluShr_toNat` and `aluShl_toNat`. -/
theorem shiftsMoveOneBitIntoVF : Obligations.ShiftsMoveOneBitIntoVF := by
  intro x y s
  obtain ⟨half, low⟩ := aluShr_toNat (s.getV x)
  obtain ⟨double, high⟩ := aluShl_toNat (s.getV x)
  obtain ⟨t, h, he, hres, hflag, hregs, hkept⟩ := alu_next (i := .shr x y) rfl half low
  obtain ⟨t', h', he', hres', hflag', hregs', hkept'⟩ := alu_next (i := .shl x y) rfl double high
  exact ⟨⟨t, h, he, hregs, hkept, hres, hflag⟩, ⟨t', h', he', hregs', hkept', hres', hflag'⟩⟩

/-- Settles O32: where the byte comes from is `drawnByte`, by the host's byte or its absence. -/
theorem randomByteIsMasked : Obligations.RandomByteIsMasked := by
  intro x kk s
  have h : exec (.rnd x kk) s = retire ((s.setV x (s.drawnByte &&& kk)).countDraw) := rfl
  refine ⟨_, h, rfl, fun b hb => ?sent, fun hb => ?free, rfl, regsKeptBut_of_executed h rfl,
    keptBut_of_executed h rfl⟩
  case sent => simp [State.drawnByte, hb]
  case free => simp [State.drawnByte, hb]

/-- Settles O33: as O19, with `I` for `PC`. -/
theorem loadIndex : Obligations.LoadIndex := by
  intro nnn s
  have h : exec (.ldI nnn) s = retire (s.setI (addrOperand nnn)) := rfl
  exact ⟨_, h, rfl, addrOperand_toNat nnn, keptBut_of_executed h rfl⟩

/-- Settles O34: the sum wraps as 16-bit addition does, and 0x50 + 5 * 15 is not truncated. -/
theorem addToIndexAndPointAtGlyph : Obligations.AddToIndexAndPointAtGlyph := by
  intro x s
  have add : exec (.addI x) s = retire (s.setI (s.i + wideReg s x)) := rfl
  have glyph : exec (.ldF x) s = retire (s.setI (BitVec.ofNat 16 (0x0050 + 5 * (lowNibble s x).toNat))) := rfl
  refine ⟨⟨_, add, rfl, ?sum, keptBut_of_executed add rfl⟩,
    ⟨_, glyph, rfl, ?address, keptBut_of_executed glyph rfl⟩⟩
  case sum =>
    simp [BitVec.toNat_add, wideReg]
  case address =>
    simp
    omega

/-- Settles O43: the sound is active exactly when the byte put in `ST` is not zero. -/
theorem timerInstructions : Obligations.TimerInstructions := by
  intro x s
  have setDt : exec (.ldDtVx x) s = retire (s.setDt (s.getV x)) := rfl
  have setSt : exec (.ldStVx x) s = retire (s.setSt (s.getV x)) := rfl
  exact ⟨setV_next rfl, ⟨_, setDt, rfl, rfl, keptBut_of_executed setDt rfl⟩,
    ⟨_, setSt, rfl, rfl, bne_iff_toNat_ne, keptBut_of_executed setSt rfl⟩⟩

end Sys2Proof.Proofs
end
